-- ==== Sys2Proof/Word.lean ====
section
/-! DEFINITION. The machine's word types (00_scope.md rule R8): `u4`, `u8`, `u12` and `u16`. -/

namespace Sys2Proof

/-- `u4`: a nibble of an opcode, or a register index (rule R20). -/
abbrev Nibble := BitVec 4

/-- `u8`: a register value, a byte of memory, or the field `kk`. -/
abbrev Byte := BitVec 8

/-- `u12`: the address operand `nnn` (rule R81). -/
abbrev Addr := BitVec 12

/-- `u16`: an opcode, a program counter or a call stack entry (rules R24 and R27). -/
abbrev Word := BitVec 16

end Sys2Proof
end

