-- ==== Sys2Proof/Syntax.lean ====
section
/-! DEFINITION. The instructions: one constructor per row of spec/opcode_table.json (30_encoding.md rules R83 and
R86). Operands carry the widths of rule R81, so no operand is out of range (log entry 6). -/

namespace Sys2Proof

/-- The four recognised instructions; every other word is unimplemented (rule R84). -/
inductive Instr where
  /-- HALT, 0x0000 (41_control.md rule R120). -/
  | halt
  /-- RET, 0x00EE (42_call_stack.md rule R127). -/
  | ret
  /-- CALL nnn, 0x2nnn (42_call_stack.md rule R128). -/
  | call (nnn : Addr)
  /-- ADD Vx, Vy, 0x8xy4 (43_arithmetic.md rule R140). -/
  | add (x y : Nibble)
  deriving DecidableEq, Repr

end Sys2Proof
end

