-- ==== Sys2Proof/WellFormed.lean ====
section
/-! DEFINITION. The assembler's lines and the constraints 30_encoding.md rule R88 puts on their numbers. A line's
numbers are natural numbers, as a programmer writes them, so a line can be ill-formed; an `Instr` cannot, and its
check is the check of the line that spells it. -/

namespace Sys2Proof

/-- One line of the notation of rule R88. -/
inductive AsmLine where
  | halt
  | ret
  | call (nnn : Nat)
  | add (x y : Nat)
  /-- `.word w`: a raw word, used to place unimplemented opcodes. -/
  | word (w : Nat)
  deriving DecidableEq, Repr

/-- The constraint column of rule R88. -/
def AsmLine.wf : AsmLine → Bool
  | .halt => true
  | .ret => true
  | .call nnn => decide (nnn ≤ 0xFFF)
  | .add x y => decide (x ≤ 0xF) && decide (y ≤ 0xF)
  | .word w => decide (w ≤ 0xFFFF)

/-- The line that spells an instruction. -/
def Instr.toAsm : Instr → AsmLine
  | .halt => .halt
  | .ret => .ret
  | .call nnn => .call nnn.toNat
  | .add x y => .add x.toNat y.toNat

/-- An instruction is well-formed when the line that spells it meets rule R88. -/
def Instr.wf (i : Instr) : Bool := i.toAsm.wf

end Sys2Proof
end

