-- ==== Sys2Proof/Decode.lean ====
section
/-! DEFINITION. The decoder (total, rejecting by name), the encoder, and the assembler of 30_encoding.md. -/

namespace Sys2Proof

/-- The word of two consecutive bytes, the byte at the lower address in bits 15 to 8 (20_memory.md rule R52). -/
def wordOfBytes (hi lo : Byte) : Word := (hi.setWidth 16 <<< 8) ||| lo.setWidth 16

/-- The byte stored at a word's lower address (rule R80). -/
def hiByte (w : Word) : Byte := w.extractLsb' 8 8

/-- The byte stored at a word's higher address. -/
def loByte (w : Word) : Byte := w.extractLsb' 0 8

/-- The fields of an opcode, rule R81. -/
structure Fields where
  /-- `op[15:12]`, the opcode group. -/
  c : Nibble
  /-- `op[11:8]`. -/
  x : Nibble
  /-- `op[7:4]`. -/
  y : Nibble
  /-- `op[3:0]`, the opcode subgroup. -/
  d : Nibble
  /-- `op[11:0]`, the address operand. -/
  nnn : Addr
  /-- `op[7:0]`, which no recognised instruction uses (rule R85). -/
  kk : Byte
  deriving DecidableEq, Repr

/-- Decoding splits any word into its fields and never fails (rules R82 and R104). -/
def decodeFields (op : Word) : Fields where
  c := op.extractLsb' 12 4
  x := op.extractLsb' 8 4
  y := op.extractLsb' 4 4
  d := op.extractLsb' 0 4
  nnn := op.extractLsb' 0 12
  kk := op.extractLsb' 0 8

/-- The four nibbles put together again, rule R82. -/
def recombine (c x y d : Nibble) : Word :=
  (c.setWidth 16 <<< 12) ||| (x.setWidth 16 <<< 8) ||| (y.setWidth 16 <<< 4) ||| d.setWidth 16

/-- Why bytes are no instruction. -/
inductive Reject where
  /-- Fewer than two bytes are left (rule R80). -/
  | truncated
  /-- The word matches no row of rule R83 (rule R84). -/
  | unimplementedOpcode (op : Word)
  deriving DecidableEq, Repr

/-- The table match of rules R83 and R105, on the nibbles as 40_execution_cycle.md rule R107 writes it. -/
def decode (op : Word) : Except Reject Instr :=
  let f := decodeFields op
  if f.c = 0x0 ∧ f.x = 0x0 ∧ f.y = 0x0 ∧ f.d = 0x0 then .ok .halt
  else if f.c = 0x0 ∧ f.x = 0x0 ∧ f.y = 0xE ∧ f.d = 0xE then .ok .ret
  else if f.c = 0x2 then .ok (.call f.nnn)
  else if f.c = 0x8 ∧ f.d = 0x4 then .ok (.add f.x f.y)
  else .error (.unimplementedOpcode op)

/-- The first instruction of a byte sequence, and the bytes after it. -/
def decodeBytes : List Byte → Except Reject (Instr × List Byte)
  | hi :: lo :: rest =>
    match decode (wordOfBytes hi lo) with
    | .ok i => .ok (i, rest)
    | .error r => .error r
  | _ => .error .truncated

/-- The host's numbering: bit 0 is the least significant bit of the first word, and bits at and above `nbits` are 0. -/
def tableWord (nbits w : Nat) : Word := BitVec.ofNat 16 (w % 2 ^ nbits)

/-- The instruction of a table word, laid out in bytes as rule R80 stores it. -/
def decodeTableWord (nbits w : Nat) : Option Instr :=
  match decodeBytes [hiByte (tableWord nbits w), loByte (tableWord nbits w)] with
  | .ok (i, _) => some i
  | .error _ => none

/-- The encoder, from the "encodes as" column of rule R88. -/
def encode : Instr → Word
  | .halt => 0x0000
  | .ret => 0x00EE
  | .call nnn => 0x2000 ||| nnn.setWidth 16
  | .add x y => 0x8004 ||| (x.setWidth 16 <<< 8) ||| (y.setWidth 16 <<< 4)

/-- An instruction's bytes, most significant first (rules R53 and R80). -/
def encodeBytes (i : Instr) : List Byte := [hiByte (encode i), loByte (encode i)]

/-- A row of the opcode map of rule R83. -/
structure OpcodeRow where
  mnemonic : String
  pattern : Word
  mask : Word
  deriving DecidableEq, Repr

/-- The opcode map of rule R83: `w` matches a row when `w & mask = pattern`. -/
def opcodeMap : List OpcodeRow :=
  [ ⟨"HALT", 0x0000, 0xFFFF⟩, ⟨"RET", 0x00EE, 0xFFFF⟩, ⟨"CALL", 0x2000, 0xF000⟩, ⟨"ADD", 0x8004, 0xF00F⟩ ]

/-- `w` matches a row of rule R83. -/
def OpcodeRow.matches (r : OpcodeRow) (w : Word) : Bool := decide (w &&& r.mask = r.pattern)

/-- An instruction's row of the opcode map. -/
def Instr.row : Instr → OpcodeRow
  | .halt => ⟨"HALT", 0x0000, 0xFFFF⟩
  | .ret => ⟨"RET", 0x00EE, 0xFFFF⟩
  | .call _ => ⟨"CALL", 0x2000, 0xF000⟩
  | .add _ _ => ⟨"ADD", 0x8004, 0xF00F⟩

/-- The word a line of rule R88 emits; an ill-formed line emits none. -/
def assemble (l : AsmLine) : Option Word :=
  if l.wf then
    match l with
    | .halt => some (encode .halt)
    | .ret => some (encode .ret)
    | .call nnn => some (encode (.call (BitVec.ofNat 12 nnn)))
    | .add x y => some (encode (.add (BitVec.ofNat 4 x) (BitVec.ofNat 4 y)))
    | .word w => some (BitVec.ofNat 16 w)
  else none

/-- The bytes of a listing, each word most significant byte first, as the loader takes them (20_memory.md rule R53). -/
def assembleBytes : List AsmLine → Option (List Byte)
  | [] => some []
  | l :: ls =>
    match assemble l, assembleBytes ls with
    | some w, some bs => some (hiByte w :: loByte w :: bs)
    | _, _ => none

/-- A number in the notation of rule R88. -/
def hexText (n : Nat) : String := "0x" ++ String.ofList (Nat.toDigits 16 n)

/-- A register's name V0 to VF, its index one upper-case hexadecimal digit (rule R9). -/
def regText (n : Nat) : String := "V" ++ String.ofList ((Nat.toDigits 16 n).map Char.toUpper)

/-- A line's spelling in the "syntax" column of rule R88. -/
def AsmLine.text : AsmLine → String
  | .halt => "HALT"
  | .ret => "RET"
  | .call nnn => "CALL " ++ hexText nnn
  | .add x y => "ADD " ++ regText x ++ ", " ++ regText y
  | .word w => ".word " ++ hexText w

end Sys2Proof
end

