-- ==== Sys2Proof/Config.lean ====
section
/-! DEFINITION. The block's fixed parameters, 00_scope.md rule R6. The widths of the rows XLEN, ILEN,
ADDR_OPERAND_WIDTH, PC_WIDTH and STACK_ENTRY_WIDTH are the types of Sys2Proof/Word.lean. The spec leaves no value
to an implementation but the step budget, so this file holds no free value (40_execution_cycle.md rule R106). -/

namespace Sys2Proof.Config

/-- `NREG`: general registers, indexed 0x0 to 0xF. -/
abbrev nreg : Nat := 16

/-- `MEM_SIZE`: bytes of memory, addresses 0x000 to 0xFFF. -/
abbrev memSize : Nat := 4096

/-- `ILEN` in bytes: what the advance adds to `pc`. -/
abbrev ilenBytes : Nat := 2

/-- The greatest address a fetch can start at (10_state.md rule R26): two bytes must fit below `MEM_SIZE`. -/
abbrev maxFetchAddr : Nat := 4094

/-- `STACK_DEPTH`: call stack entries. -/
abbrev stackDepth : Nat := 16

/-- `SYSTEM_REGION`, its first address. -/
abbrev systemBase : Nat := 0x000

/-- `SYSTEM_REGION`, its size in bytes. -/
abbrev systemSize : Nat := 0x100

/-- `PROGRAM_REGION`, its first address. -/
abbrev programBase : Nat := 0x100

/-- `RESET_PC`: the entry point of a run (20_memory.md rule R50). -/
abbrev resetPc : Word := 0x0000

/-- `FLAG_REG`: VF, the carry flag (10_state.md rule R22). -/
abbrev flagReg : Nibble := 0xF

/-- `STEP_BUDGET`: OPEN in the spec (decision D17), an argument of `run`; this is its default. -/
def defaultStepBudget : Option Nat := none

end Sys2Proof.Config
end

