-- ==== Sys2Proof/Machine/State.lean ====
section
/-! DEFINITION. The machine's state, 10_state.md: the tuple `(x[0..15], pc, stack[0..15], sp, mem[0..4095], status,
fault)` and nothing else; its value at reset; and the reasons a step or a host operation can stop. -/

namespace Sys2Proof.Machine

/-- The run status, rule R30. -/
inductive Status where
  | running
  | halted
  | faulted
  deriving DecidableEq, Repr

/-- The five fault kinds of 60_exceptions.md rule R150. -/
inductive FaultKind where
  | stackOverflow
  | stackUnderflow
  | unimplementedOpcode
  | fetchOutOfBounds
  /-- The error of a loader operation, never recorded in `fault` (rule R155). -/
  | memoryWriteOutOfBounds
  deriving DecidableEq, Repr

/-- The fault record of rules R31 and R156. -/
structure FaultRecord where
  kind : FaultKind
  /-- The kind's numeric code, rule R150. -/
  code : Nat
  /-- The faulting instruction's address, or `pc` for FetchOutOfBounds. -/
  addr : Word
  /-- The fetched word; none for FetchOutOfBounds. -/
  opcode : Option Word
  deriving DecidableEq, Repr

/-- Memory as the list of its bytes that differ from the reset contents, by rising address (20_memory.md rule R45). -/
abbrev Memory := List Host.Cell

/-- The architectural state, 10_state.md. -/
structure State where
  /-- `x[0]` to `x[15]`, that is V0 to VF (rules R20 to R23). -/
  regs : Vector Byte 16
  /-- The program counter (rules R24 to R26). -/
  pc : Word
  /-- The call stack's entries, live and dead (rules R27 and R29). -/
  stack : Vector Word 16
  /-- The stack pointer, 0 to 16: the next free slot (rule R28). -/
  sp : Fin 17
  /-- The 4096 bytes of memory (rule R45). -/
  mem : Memory
  /-- The run status (rule R30). -/
  status : Status
  /-- The fault record (rule R31). -/
  fault : Option FaultRecord
  deriving DecidableEq, Repr

/-- The state after construction, every value the spec's (rules R35 and R180): all zero, Running, no fault. -/
def State.reset : State where
  regs := Vector.replicate 16 0
  pc := Config.resetPc
  stack := Vector.replicate 16 0
  sp := 0
  mem := []
  status := .running
  fault := none

/-- Why the machine takes no step (log entry 10). The block's own faults are not here: raising one is a step, to a state whose
status is Faulted (60_exceptions.md rule R157; log entry 1). -/
inductive Fault where
  /-- Raised by `step` alone, when `status` is Halted: no step starts there (40_execution_cycle.md rule R101). Safe:
  the hardware takes no step either. -/
  | runHalted
  /-- Raised by `step` alone, when `status` is Faulted: no step starts there (rule R101). Safe, as above. -/
  | runFaulted
  deriving DecidableEq, Repr

/-- What the model gives no meaning to. -/
inductive Refusal where
  /-- Raised by nothing: every instruction has its meaning. Safe. -/
  | notModelled (mnemonic : String)
  /-- Raised by the host operations RegWrite, write_system_memory and write_program_memory after `run()`, which the
  spec refuses (40_execution_cycle.md rule R112, decision D15). Safe. -/
  | hostWriteAfterRun
  /-- Raised by a second `run()`, which the spec refuses (rule R112, decision D15). Safe. -/
  | secondRun
  /-- Raised by the observation of the whole state before `run()` has returned, where rule R112 does not allow it.
  Safe. -/
  | observeBeforeRun
  deriving DecidableEq, Repr

end Sys2Proof.Machine
end

