-- ==== Sys2Proof/Machine/Ops.lean ====
section
/-! DEFINITION. The operations every meaning is written over: memory, registers, the program counter, the call stack,
and taking a fault. There is no return from a fault (60_exceptions.md rule R159), so none stands here. -/

namespace Sys2Proof.Machine

/-! ### Memory -/

/-- What a byte no loader write covered reads as: its reset value (20_memory.md rules R47 and R60). -/
def unlistedByte : Byte := 0

/-- The byte at an address; a read changes nothing (rule R48). -/
def Memory.read : Memory → Nat → Byte
  | [], _ => unlistedByte
  | (b, u) :: m, a => if a = b then u else Memory.read m a

/-- Put one byte, keeping the addresses rising and listing no byte at its reset value. The loader is the only
writer, and gives addresses below 4096 only (rules R46, R56 and R57). -/
def Memory.write : Memory → Nat → Byte → Memory
  | [], a, v => if v = unlistedByte then [] else [(a, v)]
  | (b, u) :: m, a, v =>
    if a < b then (if v = unlistedByte then (b, u) :: m else (a, v) :: (b, u) :: m)
    else if a = b then (if v = unlistedByte then m else (a, v) :: m)
    else (b, u) :: Memory.write m a v

/-- Bytes at consecutive addresses, in order of rising address: the loop of rules R56 and R57, and 00_scope.md rule
R10's `MemWrite` of a value's bytes, most significant first. -/
def Memory.writeBytes : Memory → Nat → List Byte → Memory
  | m, _, [] => m
  | m, a, v :: vs => Memory.writeBytes (Memory.write m a v) (a + 1) vs

/-- `MemRead(a, 2)`: the big-endian word at `a` (rule R52). -/
def Memory.readWord (m : Memory) (a : Nat) : Word := wordOfBytes (Memory.read m a) (Memory.read m (a + 1))

/-- The canonical form from address `lo` up: addresses rising and below 4096, no byte at its reset value. -/
def Memory.wfFrom : Nat → Memory → Bool
  | _, [] => true
  | lo, (a, v) :: m =>
    decide (lo ≤ a) && decide (a < Config.memSize) && decide (v ≠ unlistedByte) && Memory.wfFrom (a + 1) m

/-- The canonical form of a memory: equal contents are equal lists. -/
def Memory.wf (m : Memory) : Bool := Memory.wfFrom 0 m

/-! ### Registers and the program counter -/

/-- `x[i]` (00_scope.md rule R9). Every index names a register, and none is hardwired (10_state.md rules R20, R21). -/
def readReg (s : State) (i : Nibble) : Byte := s.regs[i.toNat]'i.isLt

/-- `x[i] <- v`. -/
def writeReg (s : State) (i : Nibble) (v : Byte) : State := { s with regs := s.regs.set i.toNat v i.isLt }

/-- `pc <- target`. -/
def setPc (s : State) (target : Word) : State := { s with pc := target }

/-- `status <- st`. -/
def setStatus (s : State) (st : Status) : State := { s with status := st }

/-- `pc <- pc + 2`, done after fetch and before dispatch (40_execution_cycle.md rule R103). -/
def advance (s : State) : State := setPc s (s.pc + 2)

/-- The address `a` of the instruction being dispatched: `pc` holds `a + 2` during dispatch (rule R103; log entry 2). -/
def instrAddr (s : State) : Word := s.pc - 2

/-! ### The call stack -/

/-- `stack[j]` (rule R9). -/
def stackEntry (s : State) (j : Fin 16) : Word := s.stack[j.val]

/-- `Push(v)` of 42_call_stack.md rule R125; none, with nothing written, when the stack is full. -/
def push (s : State) (v : Word) : Option State :=
  if h : s.sp.val < Config.stackDepth then
    some { s with stack := s.stack.set s.sp.val v h, sp := ⟨s.sp.val + 1, Nat.succ_lt_succ h⟩ }
  else none

/-- `Pop()` of rule R126: the top entry, which is not cleared (10_state.md rule R29); none, with nothing written, when
the stack is empty. -/
def pop (s : State) : Option (Word × State) :=
  if h : 0 < s.sp.val then
    some (s.stack[s.sp.val - 1]'(by omega), { s with sp := ⟨s.sp.val - 1, by omega⟩ })
  else none

/-! ### Taking a fault -/

/-- The codes of 60_exceptions.md rule R150. -/
def FaultKind.code : FaultKind → Nat
  | .stackOverflow => 1
  | .stackUnderflow => 2
  | .unimplementedOpcode => 3
  | .fetchOutOfBounds => 4
  | .memoryWriteOutOfBounds => 5

/-- The record of a fault, rule R156. -/
def faultRecord (kind : FaultKind) (addr : Word) (opcode : Option Word) : FaultRecord :=
  { kind := kind, code := kind.code, addr := addr, opcode := opcode }

/-- The code the fault register shows: 0 means no fault (rule R150). -/
def faultCode (s : State) : Nat :=
  match s.fault with
  | none => 0
  | some r => r.code

/-- Fault entry, rule R157: the record is written, `status <- Faulted`, and nothing else changes. -/
def enterFault (s : State) (kind : FaultKind) (addr : Word) (opcode : Option Word) : State :=
  { s with fault := some (faultRecord kind addr opcode), status := .faulted }

/-- `raise`: the step ends in the faulted state (00_scope.md rule R10; log entry 1). -/
def raise (s : State) (kind : FaultKind) (addr : Word) (opcode : Option Word) : Host.Outcome State Fault Refusal :=
  .next (enterFault s kind addr opcode)

/-- `halt`: the step ends with `status <- Halted` (rule R10). -/
def haltRun (s : State) : Host.Outcome State Fault Refusal := .next (setStatus s .halted)

end Sys2Proof.Machine
end

