-- ==== Sys2Proof/Machine/Cycle.lean ====
section
/-! DEFINITION. The parts of a step around dispatch: fetch and the faults that belong to no instruction
(40_execution_cycle.md rules R102 and R105). -/

namespace Sys2Proof.Machine

/-- Fetch, rule R102: the word at `pc`, at any address up to 4094, odd ones included (20_memory.md rule R54); none
above it. -/
def fetch (s : State) : Option Word :=
  if s.pc.toNat ≤ Config.maxFetchAddr then some (Memory.readWord s.mem s.pc.toNat) else none

/-- FetchOutOfBounds: `addr = pc`, no opcode, `pc` unchanged (60_exceptions.md rule R154). -/
def raiseFetchOutOfBounds (s : State) : Host.Outcome State Fault Refusal := raise s .fetchOutOfBounds s.pc none

/-- UnimplementedOpcode at dispatch, `pc` already advanced (rules R153 and R157). -/
def raiseUnimplemented (s : State) (op : Word) : Host.Outcome State Fault Refusal :=
  raise s .unimplementedOpcode (instrAddr s) (some op)

/-- Where the model's loading operation puts the machine so that its next step fetches (log entry 8): Running with no
fault, `pc` kept where a fetch can start there, else at the reset entry point. -/
def readyToFetch (s : State) : State :=
  { s with
    pc := if s.pc.toNat ≤ Config.maxFetchAddr then s.pc else Config.resetPc
    status := .running
    fault := if s.status = .running then s.fault else none }

end Sys2Proof.Machine
end

