-- ==== Sys2Proof/Machine/Operands.lean ====
section
/-! DEFINITION. The operand forms of 30_encoding.md rules R85 and R86: a register, and an absolute 12-bit target. No
instruction has an immediate or a memory operand. -/

namespace Sys2Proof.Machine

/-- A register operand: the value of the register its nibble names. -/
def regOperand (s : State) (i : Nibble) : Byte := readReg s i

/-- `zext_16(nnn)`: not scaled, shifted, sign-extended or relative to `pc` (rule R85). -/
def targetAddr (nnn : Addr) : Word := nnn.setWidth 16

end Sys2Proof.Machine
end

