-- ==== Sys2Proof/Machine/Flags.lean ====
section
/-! DEFINITION. ADD's sum and the carry flag VF, the block's only flag (10_state.md rules R22 and R34). -/

namespace Sys2Proof.Machine

/-- The exact sum `s : u9` of 43_arithmetic.md rule R140, 0 to 510. -/
def exactSum (a b : Byte) : Nat := a.toNat + b.toNat

/-- The wrapped result, `s mod 256`. -/
def sumByte (a b : Byte) : Byte := BitVec.ofNat 8 (exactSum a b % 256)

/-- The carry out of bit 7: 1 when `s > 255`, else 0. -/
def carryByte (a b : Byte) : Byte := if exactSum a b > 255 then 1 else 0

/-- `x[0xF] <- carry`. -/
def writeFlag (s : State) (v : Byte) : State := writeReg s Config.flagReg v

end Sys2Proof.Machine
end

