-- ==== Sys2Proof/Machine/Arithmetic.lean ====
section
/-! DEFINITION. The arithmetic instruction ADD, 43_arithmetic.md. -/

namespace Sys2Proof.Machine

/-- ADD Vx, Vy, rule R140: both operands are read, then the sum is written to Vx, then the carry to VF. The flag
write is the last, so with `x = 0xF` VF ends as the carry (90_conflicts.md C5). -/
def execAdd (x y : Nibble) (s : State) : Host.Outcome State Fault Refusal :=
  let a := regOperand s x
  let b := regOperand s y
  .next (writeFlag (writeReg s x (sumByte a b)) (carryByte a b))

end Sys2Proof.Machine
end

