-- ==== Sys2Proof/Machine/CallStack.lean ====
section
/-! DEFINITION. The call stack instructions RET and CALL, 42_call_stack.md. -/

namespace Sys2Proof.Machine

/-- RET, rule R127: `pc <- Pop()`, or StackUnderflow. -/
def execRet (s : State) : Host.Outcome State Fault Refusal :=
  match pop s with
  | some (t, s') => .next (setPc s' t)
  | none => raise s .stackUnderflow (instrAddr s) (some (encode .ret))

/-- CALL, rule R128: `Push(pc)` of the advanced `pc`, or StackOverflow; then `pc <- zext_16(nnn)`. The recorded
opcode is the CALL's own word (60_exceptions.md rule R150; log entry 3). -/
def execCall (nnn : Addr) (s : State) : Host.Outcome State Fault Refusal :=
  match push s s.pc with
  | some s' => .next (setPc s' (targetAddr nnn))
  | none => raise s .stackOverflow (instrAddr s) (some (encode (.call nnn)))

end Sys2Proof.Machine
end

