-- ==== Sys2Proof/Machine/Control.lean ====
section
/-! DEFINITION. The control instruction HALT, 41_control.md. A meaning is the dispatch part of a step: it is entered
with `pc` already advanced (40_execution_cycle.md rule R103; log entry 2). -/

namespace Sys2Proof.Machine

/-- HALT, rule R120: `status <- Halted` and no other write. -/
def execHalt (s : State) : Host.Outcome State Fault Refusal := haltRun s

end Sys2Proof.Machine
end

