-- ==== Sys2Proof/Machine/Dispatch.lean ====
section
/-! DEFINITION. Dispatch: one arm per instruction, each its meaning (40_execution_cycle.md rule R105). -/

namespace Sys2Proof.Machine

def exec (i : Instr) (s : State) : Host.Outcome State Fault Refusal :=
  match i with
  | .halt => Sys2Proof.Machine.execHalt s
  | .ret => Sys2Proof.Machine.execRet s
  | .call nnn => Sys2Proof.Machine.execCall nnn s
  | .add x y => Sys2Proof.Machine.execAdd x y s

end Sys2Proof.Machine
end

