-- ==== Sys2Proof/Machine/Step.lean ====
section
/-! DEFINITION. One step, 40_execution_cycle.md rule R107: fetch, advance, decode, dispatch. -/

namespace Sys2Proof.Machine

/-- One step. It starts only when `status` is Running (rule R101). -/
def step (s : State) : Host.Outcome State Fault Refusal :=
  match s.status with
  | .halted => .fault .runHalted
  | .faulted => .fault .runFaulted
  | .running =>
    match fetch s with
    | none => raiseFetchOutOfBounds s
    | some op =>
      match decode op with
      | .ok i => exec i (advance s)
      | .error _ => raiseUnimplemented (advance s) op

/-- `s` made ready to fetch, with the table word `w` stored at its `pc`, most significant byte first. Stands for the
host's load of an instruction (log entry 8). -/
def State.withFetchWord (s : State) (nbits w : Nat) : State :=
  let r := readyToFetch s
  { r with mem := Memory.writeBytes r.mem r.pc.toNat [hiByte (tableWord nbits w), loByte (tableWord nbits w)] }

end Sys2Proof.Machine
end

