-- ==== Sys2Proof/Machine/Run.lean ====
section
/-! DEFINITION. The run loop and what `run()` returns, 40_execution_cycle.md rules R108 to R110. -/

namespace Sys2Proof.Machine

/-- The most steps a frame with `k` call levels left below it can take: F(16 - k) of 70_reset_and_hazards.md rule
R188. -/
def frameBound : Nat → Nat
  | 0 => 2049
  | k + 1 => 2049 * (1 + frameBound k)

/-- F(0): no run takes more steps (rule R188). Irreducible, so that no elaborator counts down from it. -/
@[irreducible] def runBound : Nat := frameBound Config.stackDepth

/-- The loop of rule R108, cut off after `n` steps: steps are taken while `status` is Running. -/
def runSteps : Nat → State → State
  | 0, s => s
  | n + 1, s =>
    match s.status with
    | .running =>
      match step s with
      | .next s' => runSteps n s'
      | _ => s
    | _ => s

/-- What `run()` returns (rule R109). -/
inductive RunResult where
  | halted
  /-- With the fault record, which is there whenever `status` is Faulted (10_state.md rule R31). -/
  | faulted (record : Option FaultRecord)
  /-- The step budget ran out with `status` still Running: no fault, no change of state (rule R110). -/
  | budgetExhausted
  deriving DecidableEq, Repr

/-- The result that a loop's last state stands for. -/
def runResult (s : State) : RunResult :=
  match s.status with
  | .halted => .halted
  | .faulted => .faulted s.fault
  | .running => .budgetExhausted

/-- The most steps a `run()` takes: its budget, or with none the bound no run exceeds (log entry 5). -/
def stepLimit : Option Nat → Nat
  | some b => b
  | none => runBound

/-- `run()` with the given STEP_BUDGET: its result and the state the last step left. -/
def runLoop (budget : Option Nat) (s : State) : RunResult × State :=
  let t := runSteps (stepLimit budget) s
  (runResult t, t)

end Sys2Proof.Machine
end

