-- ==== Sys2Proof/Machine/Session.lean ====
section
/-! DEFINITION. The host interface, 40_execution_cycle.md rule R112: construction, register access, the two loader
writes, one `run()`, and the observation after it. Each operation is atomic, so a block is never seen mid-run. -/

namespace Sys2Proof.Machine

/-- Where a block stands in the lifecycle of rule R112 (log entry 7). -/
inductive Phase where
  /-- Constructed, `run()` not yet called. -/
  | beforeRun
  /-- `run()` has returned. -/
  | afterRun
  deriving DecidableEq, Repr

/-- A block as its host holds it. -/
structure Session where
  machine : State
  phase : Phase
  deriving DecidableEq, Repr

/-- A loader operation's own result, 20_memory.md rules R56 to R58. -/
inductive LoadResult where
  | ok
  | err (kind : FaultKind)
  deriving DecidableEq, Repr

/-- `new()`: a block in its reset state (70_reset_and_hazards.md rule R180). -/
def hostNew : Session := { machine := State.reset, phase := .beforeRun }

/-- `RegWrite(i, v)` (10_state.md rule R36), allowed before `run()` only (decision D15). -/
def hostRegWrite (h : Session) (i : Nibble) (v : Byte) : Except Refusal Session :=
  match h.phase with
  | .beforeRun => .ok { h with machine := writeReg h.machine i v }
  | .afterRun => .error .hostWriteAfterRun

/-- `RegRead(i)` (rule R36), allowed whenever the block is not running. -/
def hostRegRead (h : Session) (i : Nibble) : Byte := readReg h.machine i

/-- A loader write of `bytes` from `base`, rejected as a whole when it is longer than `room` (20_memory.md rules R56
to R58): the check precedes every write. -/
def loadRegion (s : State) (base room : Nat) (bytes : List Byte) : LoadResult × State :=
  if bytes.length > room then (.err .memoryWriteOutOfBounds, s)
  else (.ok, { s with mem := Memory.writeBytes s.mem base bytes })

/-- `write_system_memory` on the state, rule R56. -/
def loadSystem (s : State) (bytes : List Byte) : LoadResult × State :=
  loadRegion s Config.systemBase Config.systemSize bytes

/-- `write_program_memory` on the state, rule R57: what is left of memory above 0x100. -/
def loadProgram (s : State) (bytes : List Byte) : LoadResult × State :=
  loadRegion s Config.programBase (Config.memSize - Config.programBase) bytes

/-- `write_system_memory`, allowed before `run()` only. -/
def hostWriteSystem (h : Session) (bytes : List Byte) : Except Refusal (LoadResult × Session) :=
  match h.phase with
  | .beforeRun => .ok ((loadSystem h.machine bytes).1, { h with machine := (loadSystem h.machine bytes).2 })
  | .afterRun => .error .hostWriteAfterRun

/-- `write_program_memory`, allowed before `run()` only. -/
def hostWriteProgram (h : Session) (bytes : List Byte) : Except Refusal (LoadResult × Session) :=
  match h.phase with
  | .beforeRun => .ok ((loadProgram h.machine bytes).1, { h with machine := (loadProgram h.machine bytes).2 })
  | .afterRun => .error .hostWriteAfterRun

/-- `run()`, once (rules R108 to R112). STEP_BUDGET is its argument, with the spec's default (decision D17). -/
def hostRun (h : Session) (budget : Option Nat := Config.defaultStepBudget) : Except Refusal (RunResult × Session) :=
  match h.phase with
  | .beforeRun => .ok ((runLoop budget h.machine).1, { machine := (runLoop budget h.machine).2, phase := .afterRun })
  | .afterRun => .error .secondRun

/-- The observation after `run()` (10_state.md rule R37): all of the state, with no side effect. -/
def hostObserve (h : Session) : Except Refusal State :=
  match h.phase with
  | .afterRun => .ok h.machine
  | .beforeRun => .error .observeBeforeRun

/-- The host's writes before `run()`, as data. -/
inductive LoadAction where
  | regWrite (i : Nibble) (v : Byte)
  | writeSystem (bytes : List Byte)
  | writeProgram (bytes : List Byte)
  deriving DecidableEq, Repr

/-- One of the host's writes on a block. -/
def LoadAction.perform (h : Session) : LoadAction → Except Refusal Session
  | .regWrite i v => hostRegWrite h i v
  | .writeSystem bytes => (hostWriteSystem h bytes).map Prod.snd
  | .writeProgram bytes => (hostWriteProgram h bytes).map Prod.snd

/-- A sequence of the host's writes, in order; a refused one ends it. -/
def performAll : List LoadAction → Session → Except Refusal Session
  | [], h => .ok h
  | a :: as, h =>
    match a.perform h with
    | .ok h' => performAll as h'
    | .error r => .error r

end Sys2Proof.Machine
end

