-- ==== Sys2Proof/Safety.lean ====
section
/-! DEFINITION. What claims about the machine are stated in: what a step executes, the invariants, and when two states
agree on what a program can see. -/

namespace Sys2Proof.Machine

/-- A step from `s` dispatches the instruction `i`: the run is on, the fetch succeeds and the word decodes to `i`. -/
def Executes (s : State) (i : Instr) : Prop :=
  s.status = .running ∧ ∃ w, fetch s = some w ∧ decode w = .ok i

/-- A step from `s` fetches a word that no row of 30_encoding.md rule R83 matches. -/
def MeetsUnimplemented (s : State) : Prop :=
  s.status = .running ∧ ∃ w r, fetch s = some w ∧ decode w = .error r

/-- `n` steps lead from `s` to `t`, every one of them to a next state. -/
def RunsTo : Nat → State → State → Prop
  | 0, s, t => t = s
  | n + 1, s, t => ∃ u, step s = .next u ∧ RunsTo n u t

/-- The run is over (40_execution_cycle.md rule R101). -/
abbrev Ended (s : State) : Prop := s.status ≠ .running

/-- `fault` is none exactly when `status` is not Faulted, and a record holds its kind's code, is never a loader's
error, and lacks an opcode exactly for FetchOutOfBounds (10_state.md rule R31, 60_exceptions.md rules R150, R155 and
R156). -/
def FaultAgrees (s : State) : Prop :=
  match s.fault with
  | none => s.status ≠ .faulted
  | some r =>
    s.status = .faulted ∧ r.code = r.kind.code ∧ r.kind ≠ .memoryWriteOutOfBounds ∧
      (r.opcode = none ↔ r.kind = .fetchOutOfBounds)

/-- What every reachable state keeps. -/
structure State.Inv (s : State) : Prop where
  /-- Memory is in its canonical form. -/
  mem : Memory.wf s.mem = true
  /-- `pc` holds 0 to 4096 (10_state.md rule R26). -/
  pc : s.pc.toNat ≤ 4096
  /-- So does every call stack entry, since CALL pushes an advanced `pc` (rule R26). -/
  stack : ∀ j : Fin 16, (stackEntry s j).toNat ≤ 4096
  /-- The fault record and the status agree. -/
  fault : FaultAgrees s

/-- Every live call stack entry is the address after a CALL in memory (42_call_stack.md rules R127 and R129). -/
def ReturnsFollowCalls (s : State) : Prop :=
  ∀ j : Fin 16, j.val < s.sp.val →
    2 ≤ (stackEntry s j).toNat ∧ (stackEntry s j).toNat ≤ 4096 ∧
      ∃ nnn, decode (Memory.readWord s.mem ((stackEntry s j).toNat - 2)) = .ok (.call nnn)

/-- `pc` and every live return address are even (10_state.md rule R25). -/
def EvenAddresses (s : State) : Prop :=
  s.pc.toNat % 2 = 0 ∧ ∀ j : Fin 16, j.val < s.sp.val → (stackEntry s j).toNat % 2 = 0

/-- The two states differ at most in dead call stack entries (10_state.md rule R29). -/
def AgreeOnLive (s t : State) : Prop :=
  s.regs = t.regs ∧ s.pc = t.pc ∧ s.sp = t.sp ∧ s.mem = t.mem ∧ s.status = t.status ∧ s.fault = t.fault ∧
    ∀ j : Fin 16, j.val < s.sp.val → stackEntry s j = stackEntry t j

/-- The two states differ at most in general registers. -/
def AgreeOffRegs (s t : State) : Prop := t = { s with regs := t.regs }

end Sys2Proof.Machine
end

