-- ==== Sys2Proof/Certificates/Slice0/Obligations.lean ====
section
/-! DEFINITION. The statements for the provers. -/

open Sys2Proof Sys2Proof.Machine

/-! ### Encoding -/

/-- Words written out from rules R83 and R89 decode to the instructions they stand for; near misses do not. -/
def Obligations.WrittenWordsDecode : Prop :=
  decode 0b0000000000000000 = .ok .halt ∧
  decode 0b0000000011101110 = .ok .ret ∧
  decode 0b0010000100000000 = .ok (.call 0x100) ∧
  decode 0b1000000000010100 = .ok (.add 0x0 0x1) ∧
  decode 0b1000101001110100 = .ok (.add 0xA 0x7) ∧
  decode 0x00F1 = .error (.unimplementedOpcode 0x00F1) ∧
  decode 0xEE00 = .error (.unimplementedOpcode 0xEE00) ∧
  decode 0x8015 = .error (.unimplementedOpcode 0x8015)

/-- Decoding an encoded instruction, as a word or at the head of any bytes, gives it back with every operand. -/
def Obligations.DecodeEncodeRoundTrip : Prop :=
  ∀ (i : Instr) (rest : List Byte),
    decode (encode i) = .ok i ∧ decodeBytes (encodeBytes i ++ rest) = .ok (i, rest)

/-- Each recognised word has one meaning: encoding what it decodes to gives the word back. -/
def Obligations.DecodedWordsReencode : Prop :=
  ∀ (w : Word) (i : Instr), decode w = .ok i → encode i = w

/-- Rule R83: the four patterns, their disjointness, and the number of words each has. -/
def Obligations.DecodeFollowsOpcodeMap : Prop :=
  (∀ w : Word,
    (decode w = .ok .halt ↔ w &&& 0xFFFF = 0x0000) ∧
    (decode w = .ok .ret ↔ w &&& 0xFFFF = 0x00EE) ∧
    (∀ nnn, decode w = .ok (.call nnn) ↔ w &&& 0xF000 = 0x2000 ∧ nnn = w.extractLsb' 0 12) ∧
    (∀ x y, decode w = .ok (.add x y) ↔
      w &&& 0xF00F = 0x8004 ∧ x = w.extractLsb' 8 4 ∧ y = w.extractLsb' 4 4) ∧
    (∀ r ∈ opcodeMap, ∀ r' ∈ opcodeMap, r.matches w = true → r'.matches w = true → r = r')) ∧
  Nat.card { w : Word // decode w = .ok .halt } = 1 ∧
  Nat.card { w : Word // decode w = .ok .ret } = 1 ∧
  Nat.card { w : Word // ∃ nnn, decode w = .ok (.call nnn) } = 4096 ∧
  Nat.card { w : Word // ∃ x y, decode w = .ok (.add x y) } = 256 ∧
  Nat.card { w : Word // ∃ i, decode w = .ok i } = 4354 ∧
  Nat.card Word = 65536

/-- Rule R153: UnimplementedOpcode is raised for each of the 61182 words without a handler, and for no other. -/
def Obligations.UnimplementedWordsFault : Prop :=
  Nat.card { w : Word // ∃ r, decode w = .error r } = 61182 ∧
  (∀ s, MeetsUnimplemented s → ∃ t r, step s = .next t ∧ t.status = .faulted ∧ t.fault = some r ∧
    r.kind = .unimplementedOpcode) ∧
  (∀ s t r, s.fault = none → step s = .next t → t.fault = some r → r.kind = .unimplementedOpcode →
    MeetsUnimplemented s)

/-- Rule R82: decoding loses no bit, and the wider fields overlay the low nibbles. -/
def Obligations.FieldsRecombine : Prop :=
  ∀ op : Word,
    let f := decodeFields op
    recombine f.c f.x f.y f.d = op ∧
    f.nnn.toNat = f.x.toNat * 256 + f.y.toNat * 16 + f.d.toNat ∧
    f.kk.toNat = f.y.toNat * 16 + f.d.toNat

/-- Rule R88 (the spec's decision D19): every instruction's line assembles to its word, a `.word` line to the word it
gives, and a line whose numbers break the constraints to nothing. -/
def Obligations.AssemblerEmitsEncoding : Prop :=
  (∀ i : Instr, assemble i.toAsm = some (encode i)) ∧
  (∀ w : Word, assemble (.word w.toNat) = some w) ∧
  (∀ n, 0xFFF < n → assemble (.call n) = none) ∧
  (∀ x y, 0xF < x ∨ 0xF < y → assemble (.add x y) = none) ∧
  (∀ n, 0xFFFF < n → assemble (.word n) = none)

/-! ### The step -/

/-- Rule R103: after a fetch, `pc` is advanced by exactly 2, then the decoded instruction runs on the advanced state;
a fault raised at dispatch leaves the advance in place. -/
def Obligations.StepRunsDecodedInstruction : Prop :=
  ∀ (s : State) (w : Word), s.status = .running → fetch s = some w →
    advance s = { s with pc := s.pc + 2 } ∧
    (advance s).pc.toNat = s.pc.toNat + 2 ∧
    (advance s).pc.toNat ≤ 4096 ∧
    (∀ i, decode w = .ok i → step s = exec i (advance s)) ∧
    (∀ r, decode w = .error r → ∃ t, step s = .next t ∧ t.status = .faulted ∧ t.pc = s.pc + 2) ∧
    (∀ t, step s = .next t → t.status = .faulted → t.pc = s.pc + 2)

/-- Rule R107, the whole step. -/
def Obligations.StepFollowsPseudocode : Prop :=
  ∀ s : State, s.status = .running →
    (4094 < s.pc.toNat → step s = .next { s with
      status := .faulted
      fault := some { kind := .fetchOutOfBounds, code := 4, addr := s.pc, opcode := none } }) ∧
    (s.pc.toNat ≤ 4094 →
      let op := Memory.readWord s.mem s.pc.toNat
      let s' := { s with pc := s.pc + 2 }
      let c := op.extractLsb' 12 4
      let x := op.extractLsb' 8 4
      let y := op.extractLsb' 4 4
      let d := op.extractLsb' 0 4
      let nnn := op.extractLsb' 0 12
      let isHalt := c = 0x0 ∧ x = 0x0 ∧ y = 0x0 ∧ d = 0x0
      let isRet := c = 0x0 ∧ x = 0x0 ∧ y = 0xE ∧ d = 0xE
      let isCall := c = 0x2
      let isAdd := c = 0x8 ∧ d = 0x4
      (isHalt → step s = execHalt s') ∧
      (isRet → step s = execRet s') ∧
      (isCall → step s = execCall nnn s') ∧
      (isAdd → step s = execAdd x y s') ∧
      (¬ isHalt → ¬ isRet → ¬ isCall → ¬ isAdd → step s = .next { s' with
        status := .faulted
        fault := some { kind := .unimplementedOpcode, code := 3, addr := s.pc, opcode := some op } }))

/-- Rule R52: a fetch at `a <= 4094`, odd or even, combines the bytes at `a` and `a + 1` big-endian. -/
def Obligations.FetchIsBigEndian : Prop :=
  ∀ s : State,
    (s.pc.toNat ≤ 4094 → ∃ w, fetch s = some w ∧
      w.toNat = (Memory.read s.mem s.pc.toNat).toNat * 256 + (Memory.read s.mem (s.pc.toNat + 1)).toNat ∧
      w.extractLsb' 8 8 = Memory.read s.mem s.pc.toNat) ∧
    (4094 < s.pc.toNat → fetch s = none)

/-- Rule R101: a step is taken exactly from the states whose status is Running; HALT's ends the run without an error,
and one that raises a fault ends it as Faulted. -/
def Obligations.StepStartsOnlyWhenRunning : Prop :=
  (∀ s : State, (∃ t, step s = .next t) ↔ s.status = .running) ∧
  (∀ s : State, Executes s .halt → ∃ t, step s = .next t ∧ t.status = .halted ∧ t.fault = s.fault) ∧
  (∀ s t : State, step s = .next t → t.fault ≠ s.fault → t.status = .faulted)

/-- Rule R30: where each status comes from. -/
def Obligations.StatusFollowsStep : Prop :=
  State.reset.status = .running ∧
  (∀ s t, s.status ≠ .running → step s ≠ .next t) ∧
  (∀ s t, step s = .next t →
    (t.status = .halted ↔ Executes s .halt) ∧
    (t.status = .faulted ↔
      4094 < s.pc.toNat ∨ MeetsUnimplemented s ∨ (Executes s .ret ∧ s.sp.val = 0) ∨
        ∃ nnn, Executes s (.call nnn) ∧ s.sp.val = 16)) ∧
  (∀ s bytes, (loadSystem s bytes).2.status = s.status ∧ (loadProgram s bytes).2.status = s.status)

/-- Rules R151 and R152: CALL alone raises StackOverflow, exactly at `sp = 16`; RET alone raises StackUnderflow,
exactly at `sp = 0`. -/
def Obligations.StackFaultsHaveOneCause : Prop :=
  ∀ s t : State, s.fault = none → step s = .next t →
    ((∃ r, t.fault = some r ∧ r.kind = .stackOverflow) ↔ ∃ nnn, Executes s (.call nnn) ∧ s.sp.val = 16) ∧
    ((∃ r, t.fault = some r ∧ r.kind = .stackUnderflow) ↔ Executes s .ret ∧ s.sp.val = 0)

/-- Rules R150, R156 and R157 with the spec's decisions D6 and D8 to D10: each fault's record, and that nothing else
changes but the advance of a dispatch fault. -/
def Obligations.FaultsArePrecise : Prop :=
  ∀ s : State, s.status = .running →
    (4094 < s.pc.toNat → step s = .next { s with
      status := .faulted
      fault := some { kind := .fetchOutOfBounds, code := 4, addr := s.pc, opcode := none } }) ∧
    (∀ w r, fetch s = some w → decode w = .error r → step s = .next { s with
      pc := s.pc + 2
      status := .faulted
      fault := some { kind := .unimplementedOpcode, code := 3, addr := s.pc, opcode := some w } }) ∧
    (∀ w nnn, fetch s = some w → decode w = .ok (.call nnn) → s.sp.val = 16 → step s = .next { s with
      pc := s.pc + 2
      status := .faulted
      fault := some { kind := .stackOverflow, code := 1, addr := s.pc, opcode := some w } }) ∧
    (∀ w, fetch s = some w → decode w = .ok .ret → s.sp.val = 0 → step s = .next { s with
      pc := s.pc + 2
      status := .faulted
      fault := some { kind := .stackUnderflow, code := 2, addr := s.pc, opcode := some w } })

/-! ### The instructions -/

/-- HALT completes in every state: only `status` changes (rule R120), and a step that executes it also leaves `pc` at
its address + 2, which the spec derives. -/
def Obligations.HaltEndsTheRun : Prop :=
  (∀ s, exec .halt s = .next { s with status := .halted }) ∧
  (∀ s, Executes s .halt → step s = .next { s with pc := s.pc + 2, status := .halted })

/-- Rule R126, in RET: with a live entry it completes, popping the top, which is not cleared, into `pc`; with none it
raises StackUnderflow and changes neither `sp` nor the advanced `pc`. -/
def Obligations.RetPopsReturnAddress : Prop :=
  (∀ (s : State) (j : Fin 16), s.sp.val = j.val + 1 →
    exec .ret s = .next { s with pc := stackEntry s j, sp := j.castSucc }) ∧
  (∀ (s : State) (j : Fin 16), Executes s .ret → s.sp.val = j.val + 1 →
    step s = .next { s with pc := stackEntry s j, sp := j.castSucc }) ∧
  (∀ s : State, Executes s .ret → s.sp.val = 0 → step s = .next { s with
    pc := s.pc + 2
    status := .faulted
    fault := some { kind := .stackUnderflow, code := 2, addr := s.pc, opcode := some 0x00EE } })

/-- Rule R125, in CALL: with a free slot it completes, pushing the advanced `pc` and going to the target, which is
zero-extended; with none it raises StackOverflow, changing neither the stack, `sp` nor the advanced `pc`. -/
def Obligations.CallPushesReturnAddress : Prop :=
  (∀ (s : State) (nnn : Addr) (j : Fin 16), s.sp.val = j.val →
    exec (.call nnn) s = .next { s with
      pc := BitVec.ofNat 16 nnn.toNat, stack := s.stack.set j.val s.pc, sp := j.succ }) ∧
  (∀ (s : State) (nnn : Addr) (j : Fin 16), Executes s (.call nnn) → s.sp.val = j.val →
    step s = .next { s with
      pc := BitVec.ofNat 16 nnn.toNat, stack := s.stack.set j.val (s.pc + 2), sp := j.succ }) ∧
  (∀ (s : State) (nnn : Addr), Executes s (.call nnn) → s.sp.val = 16 → step s = .next { s with
    pc := s.pc + 2
    status := .faulted
    fault := some {
      kind := .stackOverflow, code := 1, addr := s.pc, opcode := some (Memory.readWord s.mem s.pc.toNat) } })

/-- ADD (rule R140) completes in every state and for every pair of registers: VF ends as the carry, Vx, unless it is
VF, as the wrapped sum, every other register and all other state as before. That the flag wins for `x = 0xF` is the
spec's resolution C5. -/
def Obligations.AddWritesSumAndCarry : Prop :=
  ∀ (x y : Nibble) (s : State), ∃ t, exec (.add x y) s = .next t ∧ t = { s with regs := t.regs } ∧
    ∀ r, readReg t r =
      if r = 0xF then (if (readReg s x).toNat + (readReg s y).toNat > 255 then 1 else 0)
      else if r = x then BitVec.ofNat 8 (((readReg s x).toNat + (readReg s y).toNat) % 256)
      else readReg s r

/-- Rule R141: result and carry are the sum's remainder and quotient by 256, together the exact 9-bit sum, as values
and in the registers ADD writes them to; the words beside ADD in its group are no instructions and fault. -/
def Obligations.AddIsNineBitSum : Prop :=
  (∀ a b : Byte,
    (sumByte a b).toNat = (a.toNat + b.toNat) % 256 ∧
    (carryByte a b).toNat = (a.toNat + b.toNat) / 256 ∧
    ((carryByte a b).toNat = 0 ∨ (carryByte a b).toNat = 1) ∧
    256 * (carryByte a b).toNat + (sumByte a b).toNat = a.toNat + b.toNat) ∧
  (∀ (x y : Nibble) (s : State), ∃ t, exec (.add x y) s = .next t ∧
    (readReg t 0xF).toNat = ((readReg s x).toNat + (readReg s y).toNat) / 256 ∧
    ((readReg t 0xF).toNat = 0 ∨ (readReg t 0xF).toNat = 1) ∧
    (x ≠ 0xF →
      (readReg t x).toNat = ((readReg s x).toNat + (readReg s y).toNat) % 256 ∧
      256 * (readReg t 0xF).toNat + (readReg t x).toNat = (readReg s x).toNat + (readReg s y).toNat)) ∧
  (∀ x y d : Nibble, d ≠ 0x4 →
    decode (recombine 0x8 x y d) = .error (.unimplementedOpcode (recombine 0x8 x y d)) ∧
    ∀ s : State, s.status = .running → fetch s = some (recombine 0x8 x y d) →
      ∃ t r, step s = .next t ∧ t.status = .faulted ∧ t.fault = some r ∧ r.kind = .unimplementedOpcode)

/-- What each instruction leaves unchanged, its faulting forms included. -/
def Obligations.InstructionFrame : Prop :=
  ∀ (i : Instr) (s t : State), exec i s = .next t →
    (∀ r, (¬ ∃ x y, i = .add x y ∧ (r = x ∨ r = 0xF)) → readReg t r = readReg s r) ∧
    (∀ j : Fin 16, (¬ ∃ nnn, i = .call nnn ∧ j.val = s.sp.val) → stackEntry t j = stackEntry s j) ∧
    ((i = .halt ∨ (∃ x y, i = .add x y) ∨ (i = .ret ∧ s.sp.val = 0) ∨ ∃ nnn, i = .call nnn ∧ s.sp.val = 16) →
      t.sp = s.sp ∧ t.pc = s.pc) ∧
    (t.status ≠ s.status →
      i = .halt ∨ (i = .ret ∧ s.sp.val = 0) ∨ ∃ nnn, i = .call nnn ∧ s.sp.val = 16) ∧
    (t.fault ≠ s.fault → (i = .ret ∧ s.sp.val = 0) ∨ ∃ nnn, i = .call nnn ∧ s.sp.val = 16) ∧
    (∀ a, Memory.read t.mem a = Memory.read s.mem a)

/-! ### Whole-machine rules -/

/-- Rule R21: a step that changes a register executes an ADD, and the register is its Vx or VF. -/
def Obligations.OnlyAddWritesRegisters : Prop :=
  ∀ (s t : State) (r : Nibble), step s = .next t → readReg t r ≠ readReg s r →
    ∃ x y, Executes s (.add x y) ∧ (r = x ∨ r = 0xF)

/-- Rule R22: VF is 0 or 1 after any ADD, and once it is, every step keeps it so. -/
def Obligations.CarryFlagStaysBit : Prop :=
  (∀ s x y, Executes s (.add x y) → ∃ t, step s = .next t ∧ (readReg t 0xF = 0 ∨ readReg t 0xF = 1)) ∧
  (∀ s t, step s = .next t → (readReg s 0xF = 0 ∨ readReg s 0xF = 1) →
    (readReg t 0xF = 0 ∨ readReg t 0xF = 1))

/-- Rule R34: no instruction branches or skips on a condition. Two states that differ in registers alone step to states
that differ in registers alone. -/
def Obligations.ControlFlowIgnoresRegisters : Prop :=
  ∀ s t s' : State, AgreeOffRegs s t → step s = .next s' → ∃ t', step t = .next t' ∧ AgreeOffRegs s' t'

/-- Rule R29: dead call stack entries never show. Two states that differ in dead entries alone, run for any number of
steps, still differ in dead entries alone. -/
def Obligations.DeadEntriesAreInvisible : Prop :=
  ∀ (n : Nat) (s t : State), AgreeOnLive s t → AgreeOnLive (runSteps n s) (runSteps n t)

/-- Rule R62, which the spec derives: memory is constant for a whole run. -/
def Obligations.MemoryConstantDuringRun : Prop :=
  ∀ (n : Nat) (s t : State), RunsTo n s t → t.mem = s.mem

/-- Every step keeps the invariant. -/
def Obligations.StepKeepsInvariant : Prop :=
  ∀ s t : State, s.Inv → step s = .next t → t.Inv

/-- The reset state meets the invariants. -/
def Obligations.ResetMeetsInvariants : Prop :=
  State.reset.Inv ∧ ReturnsFollowCalls State.reset ∧ EvenAddresses State.reset

/-- Rules R127 and R129: every step keeps it that each live call stack entry is the address after a CALL in memory, so
RET pops no value that no CALL pushed. -/
def Obligations.LiveReturnsFollowCalls : Prop :=
  ∀ s t : State, ReturnsFollowCalls s → step s = .next t → ReturnsFollowCalls t

/-- Rule R25: `pc` stays even while every CALL executed has an even target. -/
def Obligations.EvenTargetsKeepPcEven : Prop :=
  ∀ s t : State, EvenAddresses s → (∀ nnn, Executes s (.call nnn) → nnn.toNat % 2 = 0) →
    step s = .next t → EvenAddresses t

/-- Rule R129: when a CALL's callee, whatever it does, first returns below its own depth, execution resumes at the
instruction after the CALL, with the depth and the caller's live entries as they were. -/
def Obligations.CallReturnRoundTrip : Prop :=
  ∀ (n : Nat) (s t : State) (nnn : Addr), Executes s (.call nnn) → s.sp.val < 16 →
    (∀ k u, 1 ≤ k → k ≤ n → RunsTo k s u → s.sp.val < u.sp.val) →
    RunsTo (n + 1) s t → t.sp.val ≤ s.sp.val →
    t.pc = s.pc + 2 ∧ t.sp = s.sp ∧ t.status = .running ∧
      ∀ j : Fin 16, j.val < s.sp.val → stackEntry t j = stackEntry s j

/-- Rule R129: up to 16 nested CALLs succeed; a 17th raises StackOverflow. -/
def Obligations.SixteenCallsFillStack : Prop :=
  ∀ (n : Nat) (s : State), s.sp.val = 0 → s.status = .running → n ≤ 16 →
    (∀ k u, k < n → RunsTo k s u → ∃ nnn, Executes u (.call nnn)) →
    ∃ t, RunsTo n s t ∧ t.sp.val = n ∧ t.status = .running ∧
      (∀ nnn, n = 16 → Executes t (.call nnn) → ∃ u r, step t = .next u ∧ u.status = .faulted ∧
        u.fault = some r ∧ r.kind = .stackOverflow ∧ u.sp.val = 16)

/-! ### Runs -/

/-- Rule R108: the run loop takes steps while `status` is Running, and stops only when it is not or at its limit. -/
def Obligations.RunTakesStepsWhileRunning : Prop :=
  ∀ (n : Nat) (s : State), ∃ k, k ≤ n ∧ RunsTo k s (runSteps n s) ∧
    (k < n → Ended (runSteps n s)) ∧
    (∀ j u, j < k → RunsTo j s u → u.status = .running)

/-- Rule R188, which the spec derives: every run ends, whatever the memory, the registers and the stack, and from an
empty stack within F(0) steps. -/
def Obligations.EveryRunEnds : Prop :=
  (∀ s : State, ∃ n, Ended (runSteps n s)) ∧
  (∀ s : State, s.sp.val = 0 → Ended (runSteps runBound s))

/-- Rules R109 and R112: whatever the host loads into a new block, `run()` without a budget returns Halted, or Faulted
with the fault record, and never BudgetExhausted. -/
def Obligations.UnbudgetedRunReports : Prop :=
  ∀ (acts : List LoadAction) (h : Session), performAll acts hostNew = .ok h →
    ∃ r h', hostRun h none = .ok (r, h') ∧ h'.phase = .afterRun ∧
      ((r = .halted ∧ h'.machine.status = .halted) ∨
        ∃ rec, r = .faulted (some rec) ∧ h'.machine.status = .faulted ∧ h'.machine.fault = some rec)

/-- Rule R110: a budget either runs out after exactly that many steps, with `status` still Running, or changes
nothing about the run. -/
def Obligations.BudgetOnlyShortensRuns : Prop :=
  ∀ (b : Nat) (s : State), s.sp.val = 0 →
    (∃ t, RunsTo b s t ∧ t.status = .running ∧ runLoop (some b) s = (.budgetExhausted, t)) ∨
    runLoop (some b) s = runLoop none s

/-! ### Reset and the host interface -/

/-- Rule R180: every piece of state of a new block holds its reset value. -/
def Obligations.ResetStateIsAllZero : Prop :=
  hostNew.machine = State.reset ∧
  (∀ i, readReg State.reset i = 0) ∧
  (∀ a, a < 4096 → Memory.read State.reset.mem a = 0) ∧
  (∀ j, stackEntry State.reset j = 0) ∧
  State.reset.pc = 0 ∧ State.reset.sp = 0 ∧ State.reset.status = .running ∧ State.reset.fault = none

/-- Rule R56: `write_system_memory`. -/
def Obligations.SystemWriteFillsFromZero : Prop :=
  ∀ (h : Session) (bytes : List Byte), h.phase = .beforeRun → Memory.wf h.machine.mem = true →
    (0x100 < bytes.length → hostWriteSystem h bytes = .ok (.err .memoryWriteOutOfBounds, h)) ∧
    (bytes.length ≤ 0x100 → ∃ m, hostWriteSystem h bytes =
        .ok (.ok, { h with machine := { h.machine with mem := m } }) ∧
      (∀ k (hk : k < bytes.length), Memory.read m k = bytes[k]) ∧
      (∀ a, bytes.length ≤ a → Memory.read m a = Memory.read h.machine.mem a))

/-- Rule R57: `write_program_memory`. -/
def Obligations.ProgramWriteFillsFromBase : Prop :=
  ∀ (h : Session) (bytes : List Byte), h.phase = .beforeRun → Memory.wf h.machine.mem = true →
    (0x1000 < 0x100 + bytes.length → hostWriteProgram h bytes = .ok (.err .memoryWriteOutOfBounds, h)) ∧
    (0x100 + bytes.length ≤ 0x1000 → ∃ m, hostWriteProgram h bytes =
        .ok (.ok, { h with machine := { h.machine with mem := m } }) ∧
      (∀ k (hk : k < bytes.length), Memory.read m (0x100 + k) = bytes[k]) ∧
      (∀ a, a < 0x100 ∨ 0x100 + bytes.length ≤ a → Memory.read m a = Memory.read h.machine.mem a))

/-- Rules R36, R56 to R59 and R182: any sequence of the host's writes on a new block is carried out, and leaves it
ready to run at 0x000 with an empty stack and the invariant met. -/
def Obligations.LoadedBlockIsReady : Prop :=
  ∀ acts : List LoadAction, ∃ h, performAll acts hostNew = .ok h ∧ h.phase = .beforeRun ∧
    h.machine.Inv ∧ h.machine.pc = 0 ∧ h.machine.sp = 0 ∧ h.machine.status = .running ∧
    h.machine.fault = none ∧ ∀ j, stackEntry h.machine j = 0

/-- Rule R112 with the spec's decision D15: register access, and what is refused after `run()`. The refusal of an
observation before `run()` is the model's reading (log entry 7). -/
def Obligations.HostLifecycle : Prop :=
  ∀ h : Session,
    (h.phase = .beforeRun →
      (∀ i v, ∃ h', hostRegWrite h i v = .ok h' ∧ h'.phase = .beforeRun ∧
        (∀ j, hostRegRead h' j = if j = i then v else hostRegRead h j) ∧
        h'.machine = { h.machine with regs := h'.machine.regs }) ∧
      (∀ b, ∃ r h', hostRun h b = .ok (r, h') ∧ h'.phase = .afterRun ∧ hostObserve h' = .ok h'.machine) ∧
      hostObserve h = .error .observeBeforeRun) ∧
    (h.phase = .afterRun →
      (∀ i v, hostRegWrite h i v = .error .hostWriteAfterRun) ∧
      (∀ bytes, hostWriteSystem h bytes = .error .hostWriteAfterRun) ∧
      (∀ bytes, hostWriteProgram h bytes = .error .hostWriteAfterRun) ∧
      (∀ b, hostRun h b = .error .secondRun))

/-- The model's loading of one instruction (log entry 8): the very next step runs it, and only the two bytes at `pc`
change in a state that is ready to fetch. -/
def Obligations.FetchWordRunsNext : Prop :=
  ∀ (s : State) (w : Nat) (i : Instr), Memory.wf s.mem = true → decodeTableWord 16 w = some i →
    let r := s.withFetchWord 16 w
    Executes r i ∧ step r = exec i (advance r) ∧
    r.regs = s.regs ∧ r.stack = s.stack ∧ r.sp = s.sp ∧
    (∀ a, a ≠ r.pc.toNat → a ≠ r.pc.toNat + 1 → Memory.read r.mem a = Memory.read s.mem a) ∧
    (s.status = .running → s.pc.toNat ≤ 4094 → r = { s with mem := r.mem })

/-- Rules R47 and R183, which the spec derives: a fetch from memory nobody wrote halts the run, and a new block halts
on its first step. -/
def Obligations.ZeroMemoryHalts : Prop :=
  (∀ s : State, s.status = .running → s.pc.toNat ≤ 4094 → Memory.read s.mem s.pc.toNat = 0 →
    Memory.read s.mem (s.pc.toNat + 1) = 0 → step s = .next { s with pc := s.pc + 2, status := .halted }) ∧
  step State.reset = .next { State.reset with pc := 2, status := .halted }
end

