-- ==== Sys2Proof/Laws/Decode.lean ====
section
/-! SUPPORT. Words and their bytes, the opcode map, and the decoder's inversion. -/

namespace Sys2Proof

/-- Every instruction is well-formed: its operands have the widths of rule R81. -/
theorem Instr.wf_all (i : Instr) : i.wf = true := by
  cases i with
  | halt => rfl
  | ret => rfl
  | call nnn =>
    have := nnn.isLt
    simp [Instr.wf, Instr.toAsm, AsmLine.wf]; omega
  | add x y =>
    have := x.isLt
    have := y.isLt
    simp [Instr.wf, Instr.toAsm, AsmLine.wf]; omega

/-- A word is made of its two bytes. -/
@[simp] theorem wordOfBytes_bytes (w : Word) : wordOfBytes (hiByte w) (loByte w) = w := by
  apply BitVec.eq_of_getLsbD_eq
  intro i hi
  simp only [wordOfBytes, hiByte, loByte, BitVec.getLsbD_or, BitVec.getLsbD_shiftLeft, BitVec.getLsbD_setWidth,
    BitVec.getLsbD_extractLsb']
  by_cases h : i < 8
  · simp [h, hi]
  · have h8 : 8 + (i - 8) = i := by omega
    have h7 : i - 8 < 8 := by omega
    simp [h, hi, h8, h7]
    exact fun _ => by omega

/-- No word matches two rows of the opcode map (rule R83): any two rows differ in a bit both fix. -/
theorem opcodeMap_disjoint : opcodeMap.Pairwise fun r r' => (r.pattern ^^^ r'.pattern) &&& r.mask &&& r'.mask ≠ 0 := by
  decide

/-- What the decoder reads, and from which nibbles (rules R105 and R107). -/
theorem decode_cases {w : Word} {i : Instr} (h : decode w = .ok i) :
    (i = .halt ∧ (decodeFields w).c = 0x0 ∧ (decodeFields w).x = 0x0 ∧ (decodeFields w).y = 0x0 ∧
      (decodeFields w).d = 0x0) ∨
    (i = .ret ∧ (decodeFields w).c = 0x0 ∧ (decodeFields w).x = 0x0 ∧ (decodeFields w).y = 0xE ∧
      (decodeFields w).d = 0xE) ∨
    (i = .call (decodeFields w).nnn ∧ (decodeFields w).c = 0x2) ∨
    (i = .add (decodeFields w).x (decodeFields w).y ∧ (decodeFields w).c = 0x8 ∧ (decodeFields w).d = 0x4) := by
  unfold decode at h
  dsimp only at h
  split at h
  · next hc => cases h; exact .inl ⟨rfl, hc⟩
  · split at h
    · next hc => cases h; exact .inr (.inl ⟨rfl, hc⟩)
    · split at h
      · next hc => cases h; exact .inr (.inr (.inl ⟨rfl, hc⟩))
      · split at h
        · next hc => cases h; exact .inr (.inr (.inr ⟨rfl, hc⟩))
        · cases h

/-- A word the decoder rejects is rejected under its own name. -/
theorem decode_error {w : Word} {r : Reject} (h : decode w = .error r) : r = .unimplementedOpcode w := by
  unfold decode at h
  dsimp only at h
  repeat' split at h
  all_goals cases h
  rfl

/-- A table word of a whole instruction goes through the same decoder as a fetched word. -/
theorem decodeTableWord_eq_some {nbits w : Nat} {i : Instr} :
    decodeTableWord nbits w = some i ↔ decode (tableWord nbits w) = .ok i := by
  simp only [decodeTableWord, decodeBytes, wordOfBytes_bytes]
  cases decode (tableWord nbits w) <;> simp

end Sys2Proof
end

