-- ==== Sys2Proof/Laws/State.lean ====
section
/-! SUPPORT. One lemma per field per update of the state, each true by rfl, and the laws of the register accessors. -/

namespace Sys2Proof.Machine

section Updates
variable (s : State)

@[simp] theorem setPc_regs (v : Word) : (setPc s v).regs = s.regs := rfl
@[simp] theorem setPc_pc (v : Word) : (setPc s v).pc = v := rfl
@[simp] theorem setPc_stack (v : Word) : (setPc s v).stack = s.stack := rfl
@[simp] theorem setPc_sp (v : Word) : (setPc s v).sp = s.sp := rfl
@[simp] theorem setPc_mem (v : Word) : (setPc s v).mem = s.mem := rfl
@[simp] theorem setPc_status (v : Word) : (setPc s v).status = s.status := rfl
@[simp] theorem setPc_fault (v : Word) : (setPc s v).fault = s.fault := rfl

@[simp] theorem advance_regs : (advance s).regs = s.regs := rfl
@[simp] theorem advance_pc : (advance s).pc = s.pc + 2 := rfl
@[simp] theorem advance_stack : (advance s).stack = s.stack := rfl
@[simp] theorem advance_sp : (advance s).sp = s.sp := rfl
@[simp] theorem advance_mem : (advance s).mem = s.mem := rfl
@[simp] theorem advance_status : (advance s).status = s.status := rfl
@[simp] theorem advance_fault : (advance s).fault = s.fault := rfl

@[simp] theorem setStatus_regs (v : Status) : (setStatus s v).regs = s.regs := rfl
@[simp] theorem setStatus_pc (v : Status) : (setStatus s v).pc = s.pc := rfl
@[simp] theorem setStatus_stack (v : Status) : (setStatus s v).stack = s.stack := rfl
@[simp] theorem setStatus_sp (v : Status) : (setStatus s v).sp = s.sp := rfl
@[simp] theorem setStatus_mem (v : Status) : (setStatus s v).mem = s.mem := rfl
@[simp] theorem setStatus_status (v : Status) : (setStatus s v).status = v := rfl
@[simp] theorem setStatus_fault (v : Status) : (setStatus s v).fault = s.fault := rfl

@[simp] theorem writeReg_pc (i : Nibble) (v : Byte) : (writeReg s i v).pc = s.pc := rfl
@[simp] theorem writeReg_stack (i : Nibble) (v : Byte) : (writeReg s i v).stack = s.stack := rfl
@[simp] theorem writeReg_sp (i : Nibble) (v : Byte) : (writeReg s i v).sp = s.sp := rfl
@[simp] theorem writeReg_mem (i : Nibble) (v : Byte) : (writeReg s i v).mem = s.mem := rfl
@[simp] theorem writeReg_status (i : Nibble) (v : Byte) : (writeReg s i v).status = s.status := rfl
@[simp] theorem writeReg_fault (i : Nibble) (v : Byte) : (writeReg s i v).fault = s.fault := rfl

variable (k : FaultKind) (a : Word) (o : Option Word)

@[simp] theorem enterFault_regs : (enterFault s k a o).regs = s.regs := rfl
@[simp] theorem enterFault_pc : (enterFault s k a o).pc = s.pc := rfl
@[simp] theorem enterFault_stack : (enterFault s k a o).stack = s.stack := rfl
@[simp] theorem enterFault_sp : (enterFault s k a o).sp = s.sp := rfl
@[simp] theorem enterFault_mem : (enterFault s k a o).mem = s.mem := rfl
@[simp] theorem enterFault_status : (enterFault s k a o).status = .faulted := rfl
@[simp] theorem enterFault_fault : (enterFault s k a o).fault = some (faultRecord k a o) := rfl

end Updates

/-- A register reads back what was written to it, and a write leaves the others alone. -/
theorem readReg_writeReg (s : State) (i j : Nibble) (v : Byte) :
    readReg (writeReg s i v) j = if j = i then v else readReg s j := by
  unfold readReg writeReg
  rw [Vector.getElem_set]
  by_cases h : j = i
  · simp [h]
  · have : i.toNat ≠ j.toNat := fun e => h (BitVec.eq_of_toNat_eq e.symm)
    simp [h, this]

@[simp] theorem readReg_setPc (s : State) (v : Word) (i : Nibble) : readReg (setPc s v) i = readReg s i := rfl
@[simp] theorem readReg_advance (s : State) (i : Nibble) : readReg (advance s) i = readReg s i := rfl
@[simp] theorem readReg_setStatus (s : State) (v : Status) (i : Nibble) :
    readReg (setStatus s v) i = readReg s i := rfl
@[simp] theorem readReg_enterFault (s : State) (k : FaultKind) (a : Word) (o : Option Word) (i : Nibble) :
    readReg (enterFault s k a o) i = readReg s i := rfl

@[simp] theorem stackEntry_setPc (s : State) (v : Word) (j : Fin 16) :
    stackEntry (setPc s v) j = stackEntry s j := rfl
@[simp] theorem stackEntry_advance (s : State) (j : Fin 16) : stackEntry (advance s) j = stackEntry s j := rfl
@[simp] theorem stackEntry_setStatus (s : State) (v : Status) (j : Fin 16) :
    stackEntry (setStatus s v) j = stackEntry s j := rfl
@[simp] theorem stackEntry_writeReg (s : State) (i : Nibble) (v : Byte) (j : Fin 16) :
    stackEntry (writeReg s i v) j = stackEntry s j := rfl
@[simp] theorem stackEntry_enterFault (s : State) (k : FaultKind) (a : Word) (o : Option Word) (j : Fin 16) :
    stackEntry (enterFault s k a o) j = stackEntry s j := rfl

end Sys2Proof.Machine
end

