-- ==== Sys2Proof/Laws/Exec.lean ====
section
/-! SUPPORT. One spec lemma per shared operation and per meaning, and what a step can do. -/

namespace Sys2Proof.Machine

/-- What `push` does when it succeeds: there is room, `v` is in the free slot, and nothing else changes. -/
theorem push_some {s s' : State} {v : Word} (h : push s v = some s') :
    ∃ hlt : s.sp.val < 16,
      s' = { s with stack := s.stack.set s.sp.val v hlt, sp := ⟨s.sp.val + 1, Nat.succ_lt_succ hlt⟩ } := by
  unfold push at h
  split at h
  · next hlt => exact ⟨hlt, (Option.some.inj h).symm⟩
  · cases h

/-- `push` fails exactly on a full stack. -/
theorem push_none {s : State} {v : Word} : push s v = none ↔ s.sp.val = 16 := by
  have := s.sp.isLt
  unfold push
  split
  · next h => have h' : s.sp.val < 16 := h; simp; omega
  · next h => have h' : ¬ s.sp.val < 16 := h; simp; omega

/-- What `pop` does when it succeeds: the stack is not empty, the top is read, and only `sp` changes. -/
theorem pop_some {s s' : State} {t : Word} (h : pop s = some (t, s')) :
    ∃ hlt : 0 < s.sp.val,
      t = s.stack[s.sp.val - 1]'(by omega) ∧ s' = { s with sp := ⟨s.sp.val - 1, by omega⟩ } := by
  unfold pop at h
  split at h
  · next hlt =>
    have h' := Prod.mk.inj (Option.some.inj h)
    exact ⟨hlt, h'.1.symm, h'.2.symm⟩
  · cases h

/-- `pop` fails exactly on an empty stack. -/
theorem pop_none {s : State} : pop s = none ↔ s.sp.val = 0 := by
  unfold pop
  split <;> simp <;> omega

/-- The call stack's entries after a push: `v` in the slot that was free, every other entry as before. -/
theorem push_stackEntry {s s' : State} {v : Word} (h : push s v = some s') (j : Fin 16) :
    stackEntry s' j = if j.val = s.sp.val then v else stackEntry s j := by
  obtain ⟨hlt, rfl⟩ := push_some h
  simp only [stackEntry, Vector.getElem_set]
  by_cases hj : j.val = s.sp.val
  · simp [hj]
  · rw [if_neg hj, if_neg (Ne.symm hj)]

/-- A pop changes no entry (10_state.md rule R29). -/
theorem pop_stackEntry {s s' : State} {t : Word} (h : pop s = some (t, s')) (j : Fin 16) :
    stackEntry s' j = stackEntry s j := by
  obtain ⟨_, _, rfl⟩ := pop_some h
  rfl

/-- The target of a CALL is its operand. -/
@[simp] theorem targetAddr_toNat (nnn : Addr) : (targetAddr nnn).toNat = nnn.toNat := by
  have := nnn.isLt
  simp [targetAddr]
  omega

/-- RET on a stack that is not empty (42_call_stack.md rule R127). -/
theorem execRet_pop {s : State} (h : 0 < s.sp.val) :
    execRet s = .next { s with pc := s.stack[s.sp.val - 1]'(by omega), sp := ⟨s.sp.val - 1, by omega⟩ } := by
  simp [execRet, pop, h, setPc]

/-- RET on an empty stack raises StackUnderflow (rule R126). -/
theorem execRet_underflow {s : State} (h : s.sp.val = 0) :
    execRet s = .next (enterFault s .stackUnderflow (instrAddr s) (some (encode .ret))) := by
  simp [execRet, pop, h, raise]

/-- CALL on a stack that is not full (rule R128). -/
theorem execCall_push {s : State} {nnn : Addr} (h : s.sp.val < 16) :
    execCall nnn s = .next { s with
      pc := targetAddr nnn
      stack := s.stack.set s.sp.val s.pc h
      sp := ⟨s.sp.val + 1, Nat.succ_lt_succ h⟩ } := by
  simp [execCall, push, h, setPc]

/-- CALL on a full stack raises StackOverflow (rule R125). -/
theorem execCall_overflow {s : State} {nnn : Addr} (h : s.sp.val = 16) :
    execCall nnn s = .next (enterFault s .stackOverflow (instrAddr s) (some (encode (.call nnn)))) := by
  simp [execCall, push, h, raise]

/-- Everything a meaning can do: end the run, pop, push, add, or raise a stack fault. -/
theorem exec_cases (i : Instr) (s : State) :
    (i = .halt ∧ exec i s = .next (setStatus s .halted)) ∨
    (∃ h : 0 < s.sp.val, i = .ret ∧
      exec i s = .next { s with pc := s.stack[s.sp.val - 1]'(by omega), sp := ⟨s.sp.val - 1, by omega⟩ }) ∨
    (s.sp.val = 0 ∧ i = .ret ∧
      exec i s = .next (enterFault s .stackUnderflow (instrAddr s) (some (encode .ret)))) ∨
    (∃ nnn, ∃ h : s.sp.val < 16, i = .call nnn ∧
      exec i s = .next { s with
        pc := targetAddr nnn
        stack := s.stack.set s.sp.val s.pc h
        sp := ⟨s.sp.val + 1, Nat.succ_lt_succ h⟩ }) ∨
    (∃ nnn, s.sp.val = 16 ∧ i = .call nnn ∧
      exec i s = .next (enterFault s .stackOverflow (instrAddr s) (some (encode (.call nnn))))) ∨
    (∃ x y, i = .add x y ∧
      exec i s = .next (writeFlag (writeReg s x (sumByte (readReg s x) (readReg s y)))
        (carryByte (readReg s x) (readReg s y)))) := by
  have hsp := s.sp.isLt
  cases i with
  | halt => exact .inl ⟨rfl, rfl⟩
  | ret =>
    by_cases h : 0 < s.sp.val
    · exact .inr (.inl ⟨h, rfl, execRet_pop h⟩)
    · exact .inr (.inr (.inl ⟨by omega, rfl, execRet_underflow (by omega)⟩))
  | call nnn =>
    by_cases h : s.sp.val < 16
    · exact .inr (.inr (.inr (.inl ⟨nnn, h, rfl, execCall_push h⟩)))
    · exact .inr (.inr (.inr (.inr (.inl ⟨nnn, by omega, rfl, execCall_overflow (by omega)⟩))))
  | add x y => exact .inr (.inr (.inr (.inr (.inr ⟨x, y, rfl, rfl⟩))))

/-- The fetch succeeds exactly up to address 4094 (40_execution_cycle.md rule R102). -/
theorem fetch_some {s : State} {w : Word} :
    fetch s = some w ↔ s.pc.toNat ≤ 4094 ∧ Memory.readWord s.mem s.pc.toNat = w := by
  unfold fetch
  split
  · next h => have h' : s.pc.toNat ≤ 4094 := h; simp [h']
  · next h => have h' : ¬ s.pc.toNat ≤ 4094 := h; simp [h']

theorem fetch_none {s : State} : fetch s = none ↔ 4094 < s.pc.toNat := by
  unfold fetch
  split
  · next h => have h' : s.pc.toNat ≤ 4094 := h; simp; omega
  · next h => have h' : ¬ s.pc.toNat ≤ 4094 := h; simp; omega

/-- The advance of a fetchable `pc` is exact (rule R103). -/
theorem advance_toNat {s : State} (h : s.pc.toNat ≤ 4094) : (advance s).pc.toNat = s.pc.toNat + 2 := by
  have h2 : (2 : Word).toNat = 2 := rfl
  rw [advance_pc, BitVec.toNat_add, h2]
  omega

/-- During dispatch the instruction's address is the `pc` the step started at. -/
@[simp] theorem instrAddr_advance (s : State) : instrAddr (advance s) = s.pc := by
  simp [instrAddr]

/-- Everything a step can do: the run is over, the fetch fails, the word is unimplemented, or its instruction runs at
the advanced `pc` (rule R107). -/
theorem step_cases (s : State) :
    (s.status = .halted ∧ step s = .fault .runHalted) ∨
    (s.status = .faulted ∧ step s = .fault .runFaulted) ∨
    (s.status = .running ∧ 4094 < s.pc.toNat ∧ step s = .next (enterFault s .fetchOutOfBounds s.pc none)) ∨
    (s.status = .running ∧ s.pc.toNat ≤ 4094 ∧ ∃ w r, fetch s = some w ∧ decode w = .error r ∧
      step s = .next (enterFault (advance s) .unimplementedOpcode s.pc (some w))) ∨
    (s.status = .running ∧ s.pc.toNat ≤ 4094 ∧ ∃ w i, fetch s = some w ∧ decode w = .ok i ∧
      step s = exec i (advance s)) := by
  cases hs : s.status with
  | halted => exact .inl ⟨rfl, by simp [step, hs]⟩
  | faulted => exact .inr (.inl ⟨rfl, by simp [step, hs]⟩)
  | running =>
    cases hf : fetch s with
    | none =>
      exact .inr (.inr (.inl ⟨rfl, fetch_none.mp hf, by simp [step, hs, hf, raiseFetchOutOfBounds, raise]⟩))
    | some w =>
      have hp := (fetch_some.mp hf).1
      cases hd : decode w with
      | error r =>
        exact .inr (.inr (.inr (.inl ⟨rfl, hp, w, r, rfl, hd, by
          simp [step, hs, hf, hd, raiseUnimplemented, raise]⟩)))
      | ok i => exact .inr (.inr (.inr (.inr ⟨rfl, hp, w, i, rfl, hd, by simp [step, hs, hf, hd]⟩)))

end Sys2Proof.Machine
end

