-- ==== Sys2Proof/Laws/Memory.lean ====
section
/-! SUPPORT. Memory: read after write, and the canonical form, which every memory operation keeps and in which equal
contents are equal lists. -/

namespace Sys2Proof.Machine

/-- In canonical form from `lo`, no byte below `lo` is listed. -/
theorem Memory.read_below {lo a : Nat} {m : Memory} (h : Memory.wfFrom lo m = true) (ha : a < lo) :
    Memory.read m a = unlistedByte := by
  induction m generalizing lo with
  | nil => rfl
  | cons c m ih =>
    obtain ⟨b, u⟩ := c
    simp only [Memory.wfFrom, Bool.and_eq_true, decide_eq_true_eq] at h
    have hne : a ≠ b := by omega
    simp only [Memory.read, hne, if_false]
    exact ih h.2 (by omega)

/-- A canonical form from `lo` is one from any lower address. -/
theorem Memory.wfFrom_mono {lo lo' : Nat} {m : Memory} (h : Memory.wfFrom lo m = true) (hle : lo' ≤ lo) :
    Memory.wfFrom lo' m = true := by
  cases m with
  | nil => rfl
  | cons c m =>
    simp only [Memory.wfFrom, Bool.and_eq_true, decide_eq_true_eq] at h ⊢
    exact ⟨⟨⟨by omega, h.1.1.2⟩, h.1.2⟩, h.2⟩

/-- A write keeps the canonical form from any address at or below the one written. -/
theorem Memory.wfFrom_write {lo a : Nat} {m : Memory} (v : Byte) (h : Memory.wfFrom lo m = true) (hlo : lo ≤ a)
    (ha : a < Config.memSize) : Memory.wfFrom lo (Memory.write m a v) = true := by
  induction m generalizing lo with
  | nil =>
    by_cases hv : v = unlistedByte <;> simp [Memory.write, hv, Memory.wfFrom]
    exact ⟨hlo, ha⟩
  | cons c m ih =>
    obtain ⟨b, u⟩ := c
    have h' := h
    simp only [Memory.wfFrom, Bool.and_eq_true, decide_eq_true_eq] at h'
    obtain ⟨⟨⟨h1, h2⟩, h3⟩, h4⟩ := h'
    by_cases hab : a < b
    · by_cases hv : v = unlistedByte <;> simp only [Memory.write, hab, hv, if_true, if_false]
      · exact h
      · simp only [Memory.wfFrom, Bool.and_eq_true, decide_eq_true_eq]
        exact ⟨⟨⟨hlo, ha⟩, hv⟩, ⟨⟨by omega, h2⟩, h3⟩, h4⟩
    · by_cases he : a = b
      · subst he
        by_cases hv : v = unlistedByte <;> simp only [Memory.write, hab, hv, if_true, if_false]
        · exact Memory.wfFrom_mono h4 (by omega)
        · simp only [Memory.wfFrom, Bool.and_eq_true, decide_eq_true_eq]
          exact ⟨⟨⟨h1, h2⟩, hv⟩, h4⟩
      · simp only [Memory.write, hab, he, if_false, Memory.wfFrom, Bool.and_eq_true, decide_eq_true_eq]
        exact ⟨⟨⟨h1, h2⟩, h3⟩, ih h4 (by omega)⟩

/-- A byte reads back what was written to it, and a write leaves every other byte alone. -/
theorem Memory.read_write {lo : Nat} {m : Memory} (h : Memory.wfFrom lo m = true) (a b : Nat) (v : Byte) :
    Memory.read (Memory.write m a v) b = if b = a then v else Memory.read m b := by
  induction m generalizing lo with
  | nil =>
    by_cases hv : v = unlistedByte <;> by_cases hb : b = a <;> simp [Memory.write, Memory.read, hv, hb]
  | cons c m ih =>
    obtain ⟨e, u⟩ := c
    simp only [Memory.wfFrom, Bool.and_eq_true, decide_eq_true_eq] at h
    obtain ⟨⟨⟨h1, h2⟩, h3⟩, h4⟩ := h
    have hbelow : ∀ n, n ≤ e → Memory.read m n = unlistedByte := fun n hn => Memory.read_below h4 (by omega)
    by_cases hae : a < e
    · by_cases hv : v = unlistedByte <;> by_cases hb : b = a <;>
        simp only [Memory.write, hae, hv, hb, if_true, if_false, Memory.read]
      rw [if_neg (by omega)]; exact hbelow a (by omega)
    · by_cases he : a = e
      · subst he
        by_cases hv : v = unlistedByte <;> by_cases hb : b = a <;>
          simp only [Memory.write, hae, hv, hb, if_true, if_false, Memory.read]
        exact hbelow a (by omega)
      · simp only [Memory.write, hae, he, if_false, Memory.read]
        by_cases hbe : b = e
        · have : b ≠ a := by omega
          simp [hbe, Ne.symm he]
        · simp only [hbe, if_false]; exact ih h4

/-- Every write to an address that exists keeps the canonical form. -/
theorem Memory.wf_write {m : Memory} {a : Nat} (v : Byte) (h : Memory.wf m = true) (ha : a < Config.memSize) :
    Memory.wf (Memory.write m a v) = true :=
  Memory.wfFrom_write v h (Nat.zero_le a) ha

/-- A write of several bytes that fit keeps the canonical form. -/
theorem Memory.wf_writeBytes {m : Memory} {a : Nat} {vs : List Byte} (h : Memory.wf m = true)
    (ha : a + vs.length ≤ Config.memSize) : Memory.wf (Memory.writeBytes m a vs) = true := by
  induction vs generalizing m a with
  | nil => exact h
  | cons v vs ih =>
    simp only [List.length_cons] at ha
    exact ih (Memory.wf_write v h (by omega)) (by omega)

/-- Bytes written at consecutive addresses read back, and every other byte is left alone. -/
theorem Memory.read_writeBytes {m : Memory} {a : Nat} {vs : List Byte} (h : Memory.wf m = true)
    (ha : a + vs.length ≤ Config.memSize) :
    (∀ k (hk : k < vs.length), Memory.read (Memory.writeBytes m a vs) (a + k) = vs[k]) ∧
      ∀ b, b < a ∨ a + vs.length ≤ b → Memory.read (Memory.writeBytes m a vs) b = Memory.read m b := by
  induction vs generalizing m a with
  | nil => exact ⟨fun k hk => by simp at hk, fun _ _ => rfl⟩
  | cons v vs ih =>
    simp only [List.length_cons] at ha
    obtain ⟨h1, h2⟩ := ih (Memory.wf_write (a := a) v h (by omega)) (a := a + 1) (by omega)
    simp only [Memory.writeBytes, List.length_cons]
    constructor
    · intro k hk
      cases k with
      | zero => rw [h2 (a + 0) (by omega), Memory.read_write h]; simp
      | succ k => rw [show a + (k + 1) = a + 1 + k by omega, h1 k (by omega)]; rfl
    · intro b hb
      rw [h2 b (by omega), Memory.read_write h, if_neg (by omega)]

/-- The empty memory of reset is canonical and reads as zero everywhere. -/
theorem Memory.wf_nil : Memory.wf [] = true := rfl

@[simp] theorem Memory.read_nil (a : Nat) : Memory.read [] a = unlistedByte := rfl

/-- In canonical form, equal contents are equal lists. -/
theorem Memory.eq_of_read_eq {lo : Nat} {m m' : Memory} (h : Memory.wfFrom lo m = true)
    (h' : Memory.wfFrom lo m' = true) (e : ∀ a, Memory.read m a = Memory.read m' a) : m = m' := by
  induction m generalizing lo m' with
  | nil =>
    cases m' with
    | nil => rfl
    | cons c m' =>
      obtain ⟨b, u⟩ := c
      simp only [Memory.wfFrom, Bool.and_eq_true, decide_eq_true_eq] at h'
      have := e b
      simp only [Memory.read, if_true] at this
      exact absurd this.symm h'.1.2
  | cons c m ih =>
    obtain ⟨b, u⟩ := c
    cases m' with
    | nil =>
      simp only [Memory.wfFrom, Bool.and_eq_true, decide_eq_true_eq] at h
      have := e b
      simp only [Memory.read, if_true] at this
      exact absurd this h.1.2
    | cons c' m' =>
      obtain ⟨b', u'⟩ := c'
      have hb := e b
      have hb' := e b'
      simp only [Memory.wfFrom, Bool.and_eq_true, decide_eq_true_eq] at h h'
      simp only [Memory.read, if_true] at hb hb'
      have hbb : b = b' := by
        rcases Nat.lt_trichotomy b b' with hlt | heq | hgt
        · rw [if_neg (by omega), Memory.read_below h'.2 (by omega)] at hb
          exact absurd hb h.1.2
        · exact heq
        · rw [if_neg (by omega), Memory.read_below h.2 (by omega)] at hb'
          exact absurd hb'.symm h'.1.2
      subst hbb
      simp only [if_true] at hb
      subst hb
      refine congrArg _ (ih h.2 h'.2 fun a => ?_)
      by_cases hab : a = b
      · rw [hab, Memory.read_below h.2 (by omega), Memory.read_below h'.2 (by omega)]
      · have := e a
        simpa only [Memory.read, hab, if_false] using this

end Sys2Proof.Machine
end

