-- ==== Sys2Proof/Laws/PerInstr.lean ====
section
/-! SUPPORT. A law of each instruction as a term: it is well-formed, and its word carries the fixed bits of its own row
of the opcode map (30_encoding.md rule R83). -/

namespace Sys2Proof.Laws.EncodeRow

/-- The instruction is well-formed, its row is one of rule R83's, and its word matches that row. -/
def Statement (i : Instr) : Prop := i.wf = true ∧ i.row ∈ opcodeMap ∧ i.row.matches (encode i) = true

theorem halt : Statement .halt := by
  refine ⟨rfl, ?_, ?_⟩ <;> decide

theorem ret : Statement .ret := by
  refine ⟨rfl, ?_, ?_⟩ <;> decide

theorem call (nnn : Addr) : Statement (.call nnn) := by
  refine ⟨Instr.wf_all _, by simp [Instr.row, opcodeMap], ?_⟩
  have h : (nnn.setWidth 16 : Word) &&& 0xF000 = 0 := by
    apply BitVec.eq_of_toNat_eq
    have := nnn.isLt
    simp only [BitVec.toNat_and, BitVec.toNat_setWidth]
    have hm : nnn.toNat % 2 ^ 16 = nnn.toNat := by omega
    rw [hm]
    apply Nat.eq_of_testBit_eq
    intro k
    by_cases hk : k < 12
    · have : (61440 : Nat).testBit k = false := by interval_cases k <;> decide
      simp [this]
    · have : nnn.toNat.testBit k = false :=
        Nat.testBit_lt_two_pow (lt_of_lt_of_le this (Nat.pow_le_pow_right (by omega) (by omega)))
      simp [this]
  simp only [OpcodeRow.matches, Instr.row, encode, decide_eq_true_eq, BitVec.and_or_distrib_right, h]
  decide

theorem add (x y : Nibble) : Statement (.add x y) := by
  refine ⟨Instr.wf_all _, by simp [Instr.row, opcodeMap], ?_⟩
  revert x y
  decide

end Sys2Proof.Laws.EncodeRow
end

