-- ==== Sys2Proof/Laws/Run.lean ====
section
/-! SUPPORT. Runs: sequences of steps, the run loop, and the host's runner. -/

namespace Sys2Proof.Machine

/-- What a step to a next state did: fault at the fetch, fault at dispatch, or run the instruction it executes. -/
theorem step_next {s t : State} (h : step s = .next t) :
    s.status = .running ∧
      ((4094 < s.pc.toNat ∧ fetch s = none ∧ t = enterFault s .fetchOutOfBounds s.pc none) ∨
       (s.pc.toNat ≤ 4094 ∧ ∃ w r, fetch s = some w ∧ decode w = .error r ∧
          t = enterFault (advance s) .unimplementedOpcode s.pc (some w)) ∨
       (s.pc.toNat ≤ 4094 ∧ ∃ i, Executes s i ∧ exec i (advance s) = .next t)) := by
  rcases step_cases s with ⟨a, e⟩ | ⟨a, e⟩ | ⟨a, hp, e⟩ | ⟨a, hp, w, r, h1, h2, e⟩ | ⟨a, hp, w, i, h1, h2, e⟩ <;>
    rw [e] at h
  · cases h
  · cases h
  · cases h; exact ⟨a, .inl ⟨hp, fetch_none.mpr hp, rfl⟩⟩
  · cases h; exact ⟨a, .inr (.inl ⟨hp, w, r, h1, h2, rfl⟩)⟩
  · exact ⟨a, .inr (.inr ⟨hp, i, ⟨a, w, h1, h2⟩, h⟩)⟩

/-- A state executes at most one instruction. -/
theorem executes_unique {s : State} {i j : Instr} (h : Executes s i) (h' : Executes s j) : i = j := by
  obtain ⟨_, w, h1, h2⟩ := h
  obtain ⟨_, w', h1', h2'⟩ := h'
  rw [h1] at h1'
  cases h1'
  rw [h2] at h2'
  cases h2'
  rfl

@[simp] theorem runsTo_zero {s t : State} : RunsTo 0 s t ↔ t = s := Iff.rfl

theorem runsTo_succ {n : Nat} {s t : State} : RunsTo (n + 1) s t ↔ ∃ u, step s = .next u ∧ RunsTo n u t := Iff.rfl

/-- Runs compose. -/
theorem runsTo_add {n k : Nat} {s t : State} : RunsTo (n + k) s t ↔ ∃ u, RunsTo n s u ∧ RunsTo k u t := by
  induction n generalizing s with
  | zero => simp
  | succ n ih =>
    rw [show n + 1 + k = (n + k) + 1 by omega, runsTo_succ]
    simp only [runsTo_succ, ih]
    constructor
    · rintro ⟨a, h, b, h1, h2⟩; exact ⟨b, ⟨a, h, h1⟩, h2⟩
    · rintro ⟨b, ⟨a, h, h1⟩, h2⟩; exact ⟨a, h, b, h1, h2⟩

/-- A run of a given length has one end. -/
theorem runsTo_unique {n : Nat} {s t u : State} (h : RunsTo n s t) (h' : RunsTo n s u) : t = u := by
  induction n generalizing s with
  | zero => exact h.trans h'.symm
  | succ n ih =>
    obtain ⟨a, ha, h⟩ := h
    obtain ⟨b, hb, h'⟩ := h'
    rw [ha] at hb
    cases hb
    exact ih h h'

/-- One step of the host's runner, for any machine. -/
theorem hostRun_succ (M : Host.Core) (n : Nat) (s t : M.State) :
    M.run (n + 1) s = .next t ↔ ∃ u, M.step s = .next u ∧ M.run n u = .next t := by
  cases h : M.step s <;> simp [Host.Core.run, h]

/-- `RunsTo` is what the host's runner computes. -/
theorem runsTo_iff_core_run {n : Nat} {s t : State} :
    RunsTo n s t ↔ Host.Core.run Sys2Proof.core n s = Host.Outcome.next t := by
  induction n generalizing s with
  | zero =>
    constructor
    · rintro rfl; rfl
    · intro h; cases h; rfl
  | succ n ih =>
    refine Iff.trans ?_ (hostRun_succ Sys2Proof.core n s t).symm
    exact exists_congr fun u => and_congr_right fun _ => ih

/-- The run loop takes a step while `status` is Running. -/
theorem runSteps_next {n : Nat} {s t : State} (hr : s.status = .running) (h : step s = .next t) :
    runSteps (n + 1) s = runSteps n t := by
  simp only [runSteps, hr, h]

/-- The run loop leaves a state whose run is over. -/
theorem runSteps_ended {n : Nat} {s : State} (h : Ended s) : runSteps n s = s := by
  cases n with
  | zero => rfl
  | succ n => cases hs : s.status <;> simp_all [runSteps]

end Sys2Proof.Machine
end

