-- ==== Sys2Proof/Laws/Session.lean ====
section
/-! SUPPORT. The loader operations, once for both regions. -/

namespace Sys2Proof.Machine

/-- A loader write that is too long is rejected and changes nothing (20_memory.md rule R58). -/
theorem loadRegion_err {s : State} {base room : Nat} {bytes : List Byte} (h : room < bytes.length) :
    loadRegion s base room bytes = (.err .memoryWriteOutOfBounds, s) := by
  simp [loadRegion, h]

/-- One that fits succeeds and writes memory alone. -/
theorem loadRegion_ok {s : State} {base room : Nat} {bytes : List Byte} (h : bytes.length ≤ room) :
    loadRegion s base room bytes = (.ok, { s with mem := Memory.writeBytes s.mem base bytes }) := by
  simp [loadRegion, Nat.not_lt.mpr h]

/-- Either way only memory can change, and its canonical form is kept. -/
theorem loadRegion_keeps {s : State} {base room : Nat} (bytes : List Byte) (hw : Memory.wf s.mem = true)
    (hb : base + room ≤ Config.memSize) :
    ∃ m, (loadRegion s base room bytes).2 = { s with mem := m } ∧ Memory.wf m = true := by
  by_cases h : bytes.length ≤ room
  · exact ⟨_, by rw [loadRegion_ok h], Memory.wf_writeBytes hw (by omega)⟩
  · exact ⟨s.mem, by rw [loadRegion_err (by omega)], hw⟩

end Sys2Proof.Machine
end

