-- ==== Sys2Proof/Tests/Slice0.lean ====
section
/-! SUPPORT. Tests: decoding of words written out from 30_encoding.md rule R83, the assembler's checks, one step at a
time on the vectors of 95_test_vectors.md, and a witness for the hypotheses of every statement that has any. -/

namespace Sys2Proof.Tests

open Sys2Proof Sys2Proof.Machine

/-- The reset state with the given `pc`, `sp` and every stack entry, and bytes stored from `pc` up. -/
def st (pc : Word) (sp : Fin 17) (entry : Word) (bytes : List Byte) : State :=
  { State.reset with
    pc := pc, sp := sp, stack := Vector.replicate 16 entry, mem := Memory.writeBytes [] pc.toNat bytes }

/-- Two registers seeded. -/
def seed (s : State) (i : Nibble) (v : Byte) (j : Nibble) (u : Byte) : State := writeReg (writeReg s i v) j u

/-- The next state, if there is one, so that two outcomes can be compared. -/
def nextOf : Host.Outcome State Fault Refusal → Option State
  | .next t => some t
  | _ => none

theorem next_of_nextOf {o : Host.Outcome State Fault Refusal} {t : State} (h : nextOf o = some t) : o = .next t := by
  cases o <;> simp_all [nextOf]

/-! ### Decoding: words written out bit by bit from the encodings of rule R83 -/

theorem test_decode_halt : decode 0b0000000000000000 = .ok .halt := by decide
theorem test_decode_ret : decode 0b0000000011101110 = .ok .ret := by decide
theorem test_decode_call : decode 0b0010101111001101 = .ok (.call 0xBCD) := by decide
theorem test_decode_add : decode 0b1000001111110100 = .ok (.add 0x3 0xF) := by decide

/-- Table 2.1 of 95_test_vectors.md: the words of class UnimplementedOpcode. -/
def unimplementedWords : List Word :=
  [0x0001, 0x00E0, 0x00ED, 0x00EF, 0x01EE, 0x0E00, 0x1FFF, 0x3000, 0x7FFF, 0x8003, 0x8005, 0x9004, 0xEE00, 0xFFFF]

theorem test_decode_unimplemented :
    unimplementedWords.map decode = unimplementedWords.map fun w => .error (.unimplementedOpcode w) := by decide

/-- Table 2.1: the lowest and highest CALL and ADD. -/
theorem test_decode_bounds :
    decode 0x2000 = .ok (.call 0x000) ∧ decode 0x2FFF = .ok (.call 0xFFF) ∧ decode 0x8004 = .ok (.add 0x0 0x0) ∧
      decode 0x8FF4 = .ok (.add 0xF 0xF) := by decide

theorem test_decode_bytes_truncated : decodeBytes [0x80] = .error .truncated ∧ decodeBytes [] = .error .truncated := by
  decide

/-- Example E10: the fields of 0x8ABC. -/
theorem test_fields : decodeFields 0x8ABC = ⟨0x8, 0xA, 0xB, 0xC, 0xABC, 0xBC⟩ := by decide

theorem test_table_word : decodeTableWord 16 0x8124 = some (.add 0x1 0x2) ∧ decodeTableWord 16 0x1200 = none := by
  decide

/-! ### Well-formedness: an ill-formed line for each check of rule R88, refused -/

theorem test_wf_call : (AsmLine.call 0x1000).wf = false ∧ assemble (.call 0x1000) = none := by decide
theorem test_wf_add_x : (AsmLine.add 16 0).wf = false ∧ assemble (.add 16 0) = none := by decide
theorem test_wf_add_y : (AsmLine.add 0 16).wf = false ∧ assemble (.add 0 16) = none := by decide
theorem test_wf_word : (AsmLine.word 0x10000).wf = false ∧ assemble (.word 0x10000) = none := by decide

/-- Program P2 of 95_test_vectors.md. -/
theorem test_assemble :
    assembleBytes [.add 0 2, .add 1 15, .add 1 3, .halt] = some [0x80, 0x24, 0x81, 0xF4, 0x81, 0x34, 0x00, 0x00] := by
  decide

theorem test_text : (AsmLine.add 0 15).text = "ADD V0, VF" ∧ (AsmLine.call 0x100).text = "CALL 0x100" := by decide

/-! ### One step each, from 95_test_vectors.md -/

/-- Section 2.3: a HALT at depth 3 does not unwind the stack. -/
theorem test_halt : nextOf (step (st 0x100 3 0 [])) = some { st 0x102 3 0 [] with status := .halted } := by decide

/-- Section 2.4: RET leaves the popped entry in place. -/
theorem test_ret :
    nextOf (step (st 0x104 1 0x0002 [0x00, 0xEE])) =
      some { st 0x104 1 0x0002 [0x00, 0xEE] with pc := 0x0002, sp := 0 } := by decide

/-- Section 2.4: RET on the empty stack. -/
theorem test_ret_underflow :
    nextOf (step (st 0x104 0 0 [0x00, 0xEE])) = some { st 0x104 0 0 [0x00, 0xEE] with
      pc := 0x106, status := .faulted, fault := some ⟨.stackUnderflow, 2, 0x104, some 0x00EE⟩ } := by decide

/-- Section 2.4: the sixteenth entry. -/
theorem test_call :
    (nextOf (step (st 0x200 15 0 [0x23, 0x00]))).map (fun t => (t.pc, t.sp, stackEntry t 15, stackEntry t 14)) =
      some (0x0300, 16, 0x0202, 0x0000) := by decide

/-- Section 2.4: CALL on the full stack. -/
theorem test_call_overflow :
    nextOf (step (st 0x200 16 0 [0x23, 0x00])) = some { st 0x200 16 0 [0x23, 0x00] with
      pc := 0x202, status := .faulted, fault := some ⟨.stackOverflow, 1, 0x200, some 0x2300⟩ } := by decide

/-- Section 2.5: 0x80 + 0x80 is exactly 256. -/
theorem test_add :
    (nextOf (step (seed (st 0x000 0 0 [0x80, 0x14]) 0x0 0x80 0x1 0x80))).map
      (fun t => (readReg t 0x0, readReg t 0x1, readReg t 0xF, t.pc)) = some (0x00, 0x80, 0x01, 0x0002) := by decide

/-- Section 2.5: `ADD VF, V1` with VF = 0x05 and V1 = 0x03: the sum is lost, the flag wins. -/
theorem test_add_to_flag :
    (nextOf (step (seed (st 0x000 0 0 [0x8F, 0x14]) 0xF 0x05 0x1 0x03))).map
      (fun t => (readReg t 0xF, readReg t 0x1)) = some (0x00, 0x03) := by decide

/-- Section 2.6. -/
theorem test_unimplemented :
    nextOf (step (st 0x100 2 0 [0x12, 0x00])) = some { st 0x100 2 0 [0x12, 0x00] with
      pc := 0x102, status := .faulted, fault := some ⟨.unimplementedOpcode, 3, 0x100, some 0x1200⟩ } := by decide

/-- Section 2.2: no fetch at 4095. -/
theorem test_fetch_out_of_bounds :
    nextOf (step (st 0x0FFF 0 0 [])) = some { st 0x0FFF 0 0 [] with
      status := .faulted, fault := some ⟨.fetchOutOfBounds, 4, 0x0FFF, none⟩ } := by decide

/-- Section 2.2: an odd fetch reads `mem[0x101]` and `mem[0x102]`. -/
theorem test_fetch_odd : fetch (st 0x101 0 0 [0x00, 0xEE]) = some 0x00EE := by decide

theorem test_no_step_after_end :
    step { State.reset with status := .halted } = .fault .runHalted ∧
      step { State.reset with status := .faulted } = .fault .runFaulted := ⟨rfl, rfl⟩

/-- Codes of rule R150; 0 means no fault. -/
theorem test_fault_code : faultCode State.reset = 0 ∧ faultCode (enterFault State.reset .fetchOutOfBounds 0 none) = 4 := by
  decide

/-! ### The loader, section 2.7 -/

theorem test_loader_overlap :
    (loadSystem (loadSystem State.reset [0xAA, 0xBB]).2 [0xCC]).2.mem = [(0, 0xCC), (1, 0xBB)] := by decide

theorem test_loader_zero_unlists : (loadSystem (loadSystem State.reset [0xAA]).2 [0x00]).2 = State.reset := by decide

theorem test_loader_too_long :
    loadProgram State.reset (List.replicate 3841 0) = (.err .memoryWriteOutOfBounds, State.reset) :=
  loadRegion_err (by rw [List.length_replicate]; decide)

/-! ### Witnesses: each statement's hypotheses are met together -/

theorem exe {s : State} {i : Instr} (w : Word) (hr : s.status = .running) (hf : fetch s = some w)
    (hd : decode w = .ok i) : Executes s i := ⟨hr, w, hf, hd⟩

theorem unimpl_state : MeetsUnimplemented (st 0 0 0 [0x00, 0xF1]) :=
  ⟨rfl, 0x00F1, .unimplementedOpcode 0x00F1, by decide, by decide⟩

theorem halt_state : Executes (st 0x0FFE 16 0 []) .halt := exe 0x0000 rfl (by decide) (by decide)
theorem ret_state (sp : Fin 17) : Executes (st 0x104 sp 2 [0x00, 0xEE]) .ret := exe 0x00EE rfl (by revert sp; decide) (by decide)
theorem call_state (sp : Fin 17) : Executes (st 0 sp 2 [0x21, 0x00]) (.call 0x100) :=
  exe 0x2100 rfl (by revert sp; decide) (by decide)
theorem add_state : Executes (seed (st 0 0 0 [0x80, 0x14]) 0x0 250 0x1 20) (.add 0x0 0x1) :=
  exe 0x8014 rfl (by decide) (by decide)

theorem test_witness_DecodedWordsReencode : decode 0x2FFF = .ok (.call 0xFFF) := by decide

/-- Both clauses: a state that meets an unimplemented word, and one whose step raised the fault. -/
theorem test_witness_UnimplementedWordsFault :
    MeetsUnimplemented (st 0 0 0 [0x00, 0xF1]) ∧ (st 0 0 0 [0x00, 0xF1]).fault = none ∧
      step (st 0 0 0 [0x00, 0xF1]) =
        .next (enterFault (advance (st 0 0 0 [0x00, 0xF1])) .unimplementedOpcode 0 (some 0x00F1)) :=
  ⟨unimpl_state, rfl, rfl⟩

/-- The ill-formed lines just past each bound. -/
theorem test_witness_AssemblerEmitsEncoding : 0xFFF < 0x1000 ∧ 0xF < 0x10 ∧ 0xFFFF < 0x10000 := by decide

/-- The last address a fetch can start at, with a recognised word and with an unimplemented one. -/
theorem test_witness_StepRunsDecodedInstruction :
    (st 0x0FFE 0 0 [0x80, 0x14]).status = .running ∧ fetch (st 0x0FFE 0 0 [0x80, 0x14]) = some 0x8014 ∧
      decode 0x8014 = .ok (.add 0x0 0x1) ∧ fetch (st 0x0FFE 0 0 [0x80, 0x15]) = some 0x8015 ∧
      decode 0x8015 = .error (.unimplementedOpcode 0x8015) ∧
      step (st 0 0 0 [0x00, 0xEE]) = .next (enterFault (advance (st 0 0 0 [0x00, 0xEE])) .stackUnderflow 0 (some 0x00EE)) :=
  ⟨rfl, by decide, by decide, by decide, by decide, rfl⟩

/-- Both sides of the fetch bound, and a word of each of the five classes. -/
theorem test_witness_StepFollowsPseudocode :
    4094 < (st 0x0FFF 0 0 []).pc.toNat ∧ (st 0x0FFE 0 0 []).pc.toNat ≤ 4094 ∧
      (∃ s w, s = st 0x0FFE 0 0 [] ∧ Memory.readWord s.mem s.pc.toNat = w ∧ w = 0x0000) ∧
      (∃ s w, s = st 0x0FFE 0 0 [0x00, 0xEE] ∧ Memory.readWord s.mem s.pc.toNat = w ∧ w = 0x00EE) ∧
      (∃ s w, s = st 0x0FFE 0 0 [0x2F, 0xFF] ∧ Memory.readWord s.mem s.pc.toNat = w ∧ w.extractLsb' 12 4 = 0x2#4) ∧
      (∃ s w, s = st 0x0FFE 0 0 [0x8F, 0xF4] ∧ Memory.readWord s.mem s.pc.toNat = w ∧ w.extractLsb' 12 4 = 0x8#4 ∧
        w.extractLsb' 0 4 = 0x4#4) ∧
      (∃ s w, s = st 0x0FFE 0 0 [0xFF, 0xFF] ∧ Memory.readWord s.mem s.pc.toNat = w ∧ w = 0xFFFF) := by
  refine ⟨by decide, by decide, ⟨_, _, rfl, rfl, ?_⟩, ⟨_, _, rfl, rfl, ?_⟩, ⟨_, _, rfl, rfl, ?_⟩, ⟨_, _, rfl, rfl, ?_⟩,
    ⟨_, _, rfl, rfl, ?_⟩⟩ <;> decide

theorem test_witness_FetchIsBigEndian : (st 0x0FFE 0 0 []).pc.toNat ≤ 4094 ∧ 4094 < (st 0x0FFF 0 0 []).pc.toNat := by
  decide

/-- Each status is reached: Running, Halted, and Faulted for each of its four causes. -/
theorem test_witness_StatusFollowsStep :
    Executes (st 0x0FFE 16 0 []) .halt ∧ 4094 < (st 0x0FFF 0 0 []).pc.toNat ∧
      MeetsUnimplemented (st 0 0 0 [0x00, 0xF1]) ∧ Executes (st 0x104 0 2 [0x00, 0xEE]) .ret ∧
      Executes (st 0 16 2 [0x21, 0x00]) (.call 0x100) ∧ { State.reset with status := .halted }.status ≠ .running ∧
      ∃ t, step State.reset = .next t :=
  ⟨halt_state, by decide, unimpl_state, ret_state 0, call_state 16, by decide, _, rfl⟩

theorem test_witness_StackFaultsHaveOneCause :
    (st 0 16 2 [0x21, 0x00]).fault = none ∧ Executes (st 0 16 2 [0x21, 0x00]) (.call 0x100) ∧
      (∃ t, step (st 0 16 2 [0x21, 0x00]) = .next t) ∧ (st 0x104 0 2 [0x00, 0xEE]).fault = none ∧
      Executes (st 0x104 0 2 [0x00, 0xEE]) .ret ∧ ∃ t, step (st 0x104 0 2 [0x00, 0xEE]) = .next t :=
  ⟨rfl, call_state 16, ⟨_, rfl⟩, rfl, ret_state 0, _, rfl⟩

/-- Each clause of the precise faults. -/
theorem test_witness_FaultsArePrecise :
    (st 0x0FFF 0 0 []).status = .running ∧ 4094 < (st 0x0FFF 0 0 []).pc.toNat ∧
      fetch (st 0 0 0 [0x00, 0xF1]) = some 0x00F1 ∧ decode 0x00F1 = .error (.unimplementedOpcode 0x00F1) ∧
      fetch (st 0 16 2 [0x21, 0x00]) = some 0x2100 ∧ decode 0x2100 = .ok (.call 0x100) ∧
      (st 0 16 2 [0x21, 0x00]).sp.val = 16 ∧ fetch (st 0x104 0 2 [0x00, 0xEE]) = some 0x00EE ∧
      decode 0x00EE = .ok .ret ∧ (st 0x104 0 2 [0x00, 0xEE]).sp.val = 0 := by
  refine ⟨rfl, ?_, ?_, ?_, ?_, ?_, ?_, ?_, ?_, ?_⟩ <;> decide

theorem test_witness_HaltEndsTheRun : Executes (st 0x0FFE 16 0 []) .halt := halt_state

/-- RET at depth 16, at depth 1 and on the empty stack. -/
theorem test_witness_RetPopsReturnAddress :
    (Executes (st 0x104 16 2 [0x00, 0xEE]) .ret ∧ (st 0x104 16 2 [0x00, 0xEE]).sp.val = (15 : Fin 16).val + 1) ∧
      (Executes (st 0x104 1 2 [0x00, 0xEE]) .ret ∧ (st 0x104 1 2 [0x00, 0xEE]).sp.val = (0 : Fin 16).val + 1) ∧
      Executes (st 0x104 0 2 [0x00, 0xEE]) .ret ∧ (st 0x104 0 2 [0x00, 0xEE]).sp.val = 0 :=
  ⟨⟨ret_state 16, rfl⟩, ⟨ret_state 1, rfl⟩, ret_state 0, rfl⟩

/-- CALL at depth 0, at depth 15 and on the full stack. -/
theorem test_witness_CallPushesReturnAddress :
    (Executes (st 0 0 2 [0x21, 0x00]) (.call 0x100) ∧ (st 0 0 2 [0x21, 0x00]).sp.val = (0 : Fin 16).val) ∧
      (Executes (st 0 15 2 [0x21, 0x00]) (.call 0x100) ∧ (st 0 15 2 [0x21, 0x00]).sp.val = (15 : Fin 16).val) ∧
      Executes (st 0 16 2 [0x21, 0x00]) (.call 0x100) ∧ (st 0 16 2 [0x21, 0x00]).sp.val = 16 :=
  ⟨⟨call_state 0, rfl⟩, ⟨call_state 15, rfl⟩, call_state 16, rfl⟩

/-- A destination that is not VF, and a group-8 word that is not ADD, fetched. -/
theorem test_witness_AddIsNineBitSum :
    (0x0 : Nibble) ≠ 0xF ∧ (0x5 : Nibble) ≠ 0x4 ∧ (st 0 0 0 [0x80, 0x15]).status = .running ∧
      fetch (st 0 0 0 [0x80, 0x15]) = some (recombine 0x8 0x0 0x1 0x5) := by
  refine ⟨?_, ?_, rfl, ?_⟩ <;> decide

theorem test_witness_StepStartsOnlyWhenRunning :
    Executes (st 0x0FFE 16 0 []) .halt ∧ step (st 0x0FFF 0 0 []) =
      .next (enterFault (st 0x0FFF 0 0 []) .fetchOutOfBounds 0x0FFF none) := ⟨halt_state, rfl⟩

/-- Every instruction reaches a next state. -/
theorem test_witness_InstructionFrame :
    (∃ t, exec .halt State.reset = .next t) ∧ (∃ t, exec .ret (st 2 1 2 []) = .next t) ∧
      (∃ t, exec .ret State.reset = .next t) ∧ (∃ t, exec (.call 0x100) State.reset = .next t) ∧
      (∃ t, exec (.call 0x100) (st 2 16 2 []) = .next t) ∧ ∃ t, exec (.add 0x0 0x1) State.reset = .next t :=
  ⟨⟨_, rfl⟩, ⟨_, rfl⟩, ⟨_, rfl⟩, ⟨_, rfl⟩, ⟨_, rfl⟩, _, rfl⟩

theorem test_witness_OnlyAddWritesRegisters :
    ∃ t, step (seed (st 0 0 0 [0x80, 0x14]) 0x0 250 0x1 20) = .next t ∧
      readReg t 0x0 ≠ readReg (seed (st 0 0 0 [0x80, 0x14]) 0x0 250 0x1 20) 0x0 :=
  ⟨_, rfl, by decide⟩

theorem test_witness_CarryFlagStaysBit :
    Executes (seed (st 0 0 0 [0x80, 0x14]) 0x0 250 0x1 20) (.add 0x0 0x1) ∧
      (∃ t, step (st 0 0 2 [0x21, 0x00]) = .next t) ∧ readReg (st 0 0 2 [0x21, 0x00]) 0xF = 0 :=
  ⟨add_state, ⟨_, rfl⟩, by decide⟩

/-- Two states that differ in V0, and a step. -/
theorem test_witness_ControlFlowIgnoresRegisters :
    AgreeOffRegs State.reset (writeReg State.reset 0x0 1) ∧ State.reset ≠ writeReg State.reset 0x0 1 ∧
      ∃ t, step State.reset = .next t :=
  ⟨rfl, by decide, _, rfl⟩

/-- Two states that differ in every dead entry. -/
theorem test_witness_DeadEntriesAreInvisible :
    AgreeOnLive (st 0 0 0 [0x21, 0x00]) (st 0 0 7 [0x21, 0x00]) ∧ st 0 0 0 [0x21, 0x00] ≠ st 0 0 7 [0x21, 0x00] :=
  ⟨⟨rfl, rfl, rfl, rfl, rfl, rfl, fun j hj => absurd hj (Nat.not_lt_zero j.val)⟩, by decide⟩

theorem test_witness_MemoryConstantDuringRun : ∃ t, RunsTo 1 (st 0 0 2 [0x21, 0x00]) t := ⟨_, _, rfl, rfl⟩

/-- A state with a live entry, a fault-free record and code in memory meets the invariants and steps. -/
theorem test_witness_invariants :
    (st 0 1 2 [0x21, 0x00]).Inv ∧ ReturnsFollowCalls (st 0 1 2 [0x21, 0x00]) ∧ EvenAddresses (st 0 1 2 [0x21, 0x00]) ∧
      (∀ nnn, Executes (st 0 1 2 [0x21, 0x00]) (.call nnn) → nnn.toNat % 2 = 0) ∧
      ∃ t, step (st 0 1 2 [0x21, 0x00]) = .next t := by
  refine ⟨⟨by decide, by decide, by decide, by simp [FaultAgrees, st, State.reset]⟩, ?_, ⟨by decide, by decide⟩, ?_, _, rfl⟩
  · intro j _
    have hj : stackEntry (st 0 1 2 [0x21, 0x00]) j = 2 := by revert j; decide
    rw [hj]
    exact ⟨by decide, by decide, 0x100, by decide⟩
  · intro nnn h
    cases executes_unique (call_state 1) h
    decide

/-- A CALL whose callee returns at once: `n = 1`. -/
theorem test_witness_CallReturnRoundTrip :
    let s := { st 0 0 0 [] with mem := Memory.writeBytes [(0, 0x21)] 0x101 [0xEE] }
    Executes s (.call 0x100) ∧ s.sp.val < 16 ∧ (∀ k u, 1 ≤ k → k ≤ 1 → RunsTo k s u → s.sp.val < u.sp.val) ∧
      ∃ t, RunsTo (1 + 1) s t ∧ t.sp.val ≤ s.sp.val := by
  intro s
  let t₁ : State := { s with pc := 0x100, stack := s.stack.set 0 2, sp := 1 }
  let t₂ : State := { t₁ with pc := 2, sp := 0 }
  refine ⟨exe 0x2100 rfl (by decide) (by decide), by decide, ?_, t₂, ⟨t₁, next_of_nextOf (by decide), t₂, next_of_nextOf (by decide), rfl⟩,
    by decide⟩
  intro k u h1 h2 hu
  obtain rfl : k = 1 := by omega
  have h : RunsTo 1 s t₁ := ⟨t₁, next_of_nextOf (by decide), rfl⟩
  rw [runsTo_unique hu h]
  decide

/-- Example E4's self-call meets the hypotheses for all sixteen CALLs. -/
theorem test_witness_SixteenCallsFillStack :
    (st 0 0 0 [0x20, 0x00]).sp.val = 0 ∧ (st 0 0 0 [0x20, 0x00]).status = .running ∧
      ∀ k u, k < 16 → RunsTo k (st 0 0 0 [0x20, 0x00]) u → ∃ nnn, Executes u (.call nnn) := by
  have along : ∀ k u, k ≤ 16 → RunsTo k (st 0 0 0 [0x20, 0x00]) u →
      u.sp.val = k ∧ u.pc = 0 ∧ u.mem = [(0, 0x20)] ∧ u.status = .running := by
    intro k
    induction k with
    | zero => rintro u _ rfl; decide
    | succ k ih =>
      intro u hk hu
      obtain ⟨v, hv, w, hs, rfl⟩ := runsTo_add.mp hu
      obtain ⟨hsp, hpc, hm, hr⟩ := ih v (by omega) hv
      have hf : fetch v = some 0x2000 := fetch_some.mpr ⟨by rw [hpc]; decide, by rw [hpc, hm]; decide⟩
      have hx : step v = execCall 0 (advance v) := by
        have hd : decode 0x2000 = .ok (.call 0) := by decide
        simp only [step, hr, hf, hd, exec]
      rw [hx, execCall_push (s := advance v) (by rw [advance_sp]; omega)] at hs
      cases hs
      exact ⟨by simp [hsp], rfl, hm, hr⟩
  refine ⟨rfl, rfl, fun k u hk hu => ?_⟩
  obtain ⟨_, hpc, hm, hr⟩ := along k u (by omega) hu
  exact ⟨0, hr, 0x2000, fetch_some.mpr ⟨by rw [hpc]; decide, by rw [hpc, hm]; decide⟩, by decide⟩

theorem test_witness_runs_from_empty_stack : State.reset.sp.val = 0 := rfl

theorem test_witness_UnbudgetedRunReports :
    ∃ h, performAll [.regWrite 0x0 250, .writeSystem [0x80, 0x14], .writeProgram [0x00, 0xEE]] hostNew = .ok h :=
  ⟨_, rfl⟩

/-- Both sides of each loader bound. -/
theorem test_witness_loader :
    hostNew.phase = .beforeRun ∧ Memory.wf hostNew.machine.mem = true ∧
      (List.replicate 256 (1 : Byte)).length ≤ 0x100 ∧ 0x100 < (List.replicate 257 (1 : Byte)).length ∧
      0x100 + (List.replicate 3840 (1 : Byte)).length ≤ 0x1000 ∧
      0x1000 < 0x100 + (List.replicate 3841 (1 : Byte)).length := by
  simp only [List.length_replicate]
  exact ⟨rfl, rfl, by decide, by decide, by decide, by decide⟩

theorem test_witness_HostLifecycle :
    hostNew.phase = .beforeRun ∧ { hostNew with phase := .afterRun }.phase = .afterRun := ⟨rfl, rfl⟩

/-- In a state ready to fetch and in one that has ended out of bounds. -/
theorem test_witness_FetchWordRunsNext :
    Memory.wf State.reset.mem = true ∧ decodeTableWord 16 0x8FF4 = some (.add 0xF 0xF) ∧
      State.reset.status = .running ∧ State.reset.pc.toNat ≤ 4094 ∧
      nextOf (step ((st 0x0FFF 0 0 []).withFetchWord 16 0x2FFF)) =
        nextOf (exec (.call 0xFFF) (advance ((st 0x0FFF 0 0 []).withFetchWord 16 0x2FFF))) := by
  refine ⟨rfl, ?_, rfl, ?_, ?_⟩ <;> decide

theorem test_witness_ZeroMemoryHalts :
    (st 0x0FFE 16 0 []).status = .running ∧ (st 0x0FFE 16 0 []).pc.toNat ≤ 4094 ∧
      Memory.read (st 0x0FFE 16 0 []).mem 0x0FFE = 0 ∧ Memory.read (st 0x0FFE 16 0 []).mem 0x0FFF = 0 := by
  refine ⟨rfl, ?_, ?_, ?_⟩ <;> decide

end Sys2Proof.Tests
end

section
/-! SUPPORT. Where each run status comes from (10_state.md rule R30): what a state that executes an instruction rules
out, the status each meaning leaves, and from these the status each step leaves. -/

namespace Sys2Proof.Machine

/-- A state that executes an instruction can fetch. -/
theorem Executes.pc_le {s : State} {i : Instr} (h : Executes s i) : s.pc.toNat ≤ 4094 := by
  obtain ⟨_, w, hf, _⟩ := h
  exact (fetch_some.mp hf).1

/-- A word has a row of the opcode map or none, not both. -/
theorem Executes.not_meetsUnimplemented {s : State} {i : Instr} (h : Executes s i) : ¬ MeetsUnimplemented s := by
  obtain ⟨_, w, hf, hd⟩ := h
  rintro ⟨_, w', r, hf', hd'⟩
  obtain rfl : w = w' := Option.some.inj (hf.symm.trans hf')
  cases hd.symm.trans hd'

/-- Once one executed instruction is known, executing another means being it. -/
theorem Executes.iff_eq {s : State} {i j : Instr} (h : Executes s i) : Executes s j ↔ i = j :=
  ⟨executes_unique h, fun e => e ▸ h⟩

/-- From Running, HALT's meaning alone leaves Halted. -/
theorem exec_halted_iff {i : Instr} {s t : State} (hr : s.status = .running) (h : exec i s = .next t) :
    t.status = .halted ↔ i = .halt := by
  rcases exec_cases i s with ⟨rfl, e⟩ | ⟨_, rfl, e⟩ | ⟨_, rfl, e⟩ | ⟨_, _, rfl, e⟩ | ⟨_, _, rfl, e⟩ | ⟨_, _, rfl, e⟩ <;>
    obtain rfl := Host.Outcome.next.inj (e.symm.trans h) <;> simp [hr, writeFlag]

/-- From Running, a meaning leaves Faulted exactly when it raises a stack fault (42_call_stack.md rules R125 and
R126). -/
theorem exec_faulted_iff {i : Instr} {s t : State} (hr : s.status = .running) (h : exec i s = .next t) :
    t.status = .faulted ↔ (i = .ret ∧ s.sp.val = 0) ∨ ∃ nnn, i = .call nnn ∧ s.sp.val = 16 := by
  rcases exec_cases i s with ⟨rfl, e⟩ | ⟨hsp, rfl, e⟩ | ⟨hsp, rfl, e⟩ | ⟨nnn, hsp, rfl, e⟩ | ⟨nnn, hsp, rfl, e⟩ |
      ⟨_, _, rfl, e⟩ <;>
    obtain rfl := Host.Outcome.next.inj (e.symm.trans h)
  · simp
  · simp [hr, hsp.ne']
  · exact iff_of_true rfl (.inl ⟨rfl, hsp⟩)
  · simp [hr, hsp.ne]
  · exact iff_of_true rfl (.inr ⟨nnn, rfl, hsp⟩)
  · simp [hr, writeFlag]

/-- No step starts from Halted or Faulted (40_execution_cycle.md rule R101). -/
theorem step_ne_next_of_ended {s : State} (h : Ended s) (t : State) : step s ≠ .next t :=
  fun hs => h (step_next hs).1

/-- A step ends Halted exactly when it executes HALT (41_control.md rule R120). -/
theorem step_halted_iff {s t : State} (h : step s = .next t) : t.status = .halted ↔ Executes s .halt := by
  obtain ⟨hr, ⟨hp, _, rfl⟩ | ⟨_, w, r, hf, hd, rfl⟩ | ⟨_, i, hi, he⟩⟩ := step_next h
  · have hn : ¬ Executes s .halt := fun hx => Nat.not_lt.mpr hx.pc_le hp
    simp [hn]
  · have hn : ¬ Executes s .halt := fun hx => hx.not_meetsUnimplemented ⟨hr, w, r, hf, hd⟩
    simp [hn]
  · rw [exec_halted_iff (s := advance s) hr he, hi.iff_eq]

/-- A step ends Faulted exactly by one of the four faults a step can raise (60_exceptions.md rule R150). -/
theorem step_faulted_iff {s t : State} (h : step s = .next t) :
    t.status = .faulted ↔
      4094 < s.pc.toNat ∨ MeetsUnimplemented s ∨ (Executes s .ret ∧ s.sp.val = 0) ∨
        ∃ nnn, Executes s (.call nnn) ∧ s.sp.val = 16 := by
  obtain ⟨hr, ⟨hp, _, rfl⟩ | ⟨_, w, r, hf, hd, rfl⟩ | ⟨hp, i, hi, he⟩⟩ := step_next h
  · exact iff_of_true rfl (.inl hp)
  · exact iff_of_true rfl (.inr (.inl ⟨hr, w, r, hf, hd⟩))
  · rw [exec_faulted_iff (s := advance s) hr he]
    simp only [Nat.not_lt.mpr hp, hi.not_meetsUnimplemented, hi.iff_eq, false_or, advance_sp]

/-- A loader write, rejected or not, leaves the status. -/
theorem loadRegion_status (s : State) (base room : Nat) (bytes : List Byte) :
    (loadRegion s base room bytes).2.status = s.status := by
  by_cases h : bytes.length ≤ room
  · rw [loadRegion_ok h]
  · rw [loadRegion_err (Nat.not_le.mp h)]

/-- Settles O12: reset by evaluation, the rest from the lemmas about a step's and a loader write's status. -/
theorem statusFollowsStep : Obligations.StatusFollowsStep :=
  ⟨rfl, fun _ t hs => step_ne_next_of_ended hs t, fun _ _ h => ⟨step_halted_iff h, step_faulted_iff h⟩,
    fun s bytes => ⟨loadRegion_status s _ _ bytes, loadRegion_status s _ _ bytes⟩⟩

end Sys2Proof.Machine
end

section
/-! SUPPORT. A word's value and high byte, from the two bytes it is made of (20_memory.md rule R52). -/

namespace Sys2Proof

/-- The shifted high byte and the low byte share no bit, so joining them adds their values. -/
theorem wordOfBytes_toNat (hi lo : Byte) : (wordOfBytes hi lo).toNat = hi.toNat * 256 + lo.toNat := by
  have hhi := hi.isLt
  have hlo := lo.isLt
  calc (wordOfBytes hi lo).toNat
      = hi.toNat <<< 8 ||| lo.toNat := by
        simp only [wordOfBytes, BitVec.toNat_or, BitVec.toNat_shiftLeft, BitVec.toNat_setWidth]
        rw [Nat.mod_eq_of_lt (a := hi.toNat) (by omega), Nat.mod_eq_of_lt (a := lo.toNat) (by omega),
          Nat.mod_eq_of_lt (by rw [Nat.shiftLeft_eq]; omega)]
    _ = hi.toNat <<< 8 + lo.toNat := (Nat.shiftLeft_add_eq_or_of_lt hlo _).symm
    _ = hi.toNat * 256 + lo.toNat := by rw [Nat.shiftLeft_eq]

/-- Bits 15 to 8 of a word are the byte at its lower address. -/
@[simp] theorem hiByte_wordOfBytes (hi lo : Byte) : hiByte (wordOfBytes hi lo) = hi := by
  have hhi := hi.isLt
  have hlo := lo.isLt
  apply BitVec.eq_of_toNat_eq
  rw [hiByte, BitVec.extractLsb'_toNat, wordOfBytes_toNat, Nat.shiftRight_eq_div_pow]
  omega

end Sys2Proof

namespace Sys2Proof.Machine

/-- Settles O10: the fetch is the word at `pc`, whose bytes are those at `pc` and `pc + 1`. -/
theorem fetchIsBigEndian : Obligations.FetchIsBigEndian := fun _ =>
  ⟨fun hp => ⟨_, fetch_some.mpr ⟨hp, rfl⟩, wordOfBytes_toNat _ _, hiByte_wordOfBytes _ _⟩, fetch_none.mpr⟩

end Sys2Proof.Machine
end

section
/-! SUPPORT. The loader's writes before `run()`: the bytes of a write that fits, on the state for both regions, and
the two host operations in terms of the state's (20_memory.md rules R56 and R57). -/

namespace Sys2Proof.Machine

/-- A write that fits a region of memory places its bytes from the region's base and changes no other byte. -/
theorem loadRegion_fills {s : State} {base room : Nat} {bytes : List Byte} (hw : Memory.wf s.mem = true)
    (hb : base + room ≤ Config.memSize) (hn : bytes.length ≤ room) :
    ∃ m, loadRegion s base room bytes = (.ok, { s with mem := m }) ∧
      (∀ k (hk : k < bytes.length), Memory.read m (base + k) = bytes[k]) ∧
      ∀ a, a < base ∨ base + bytes.length ≤ a → Memory.read m a = Memory.read s.mem a :=
  ⟨_, loadRegion_ok hn, Memory.read_writeBytes hw (by omega)⟩

/-- Before `run()` the host's write answers what the state's write answers, on the same block. -/
theorem hostWriteSystem_beforeRun {h : Session} {bytes : List Byte} {r : LoadResult} {s : State}
    (hp : h.phase = .beforeRun) (hl : loadSystem h.machine bytes = (r, s)) :
    hostWriteSystem h bytes = .ok (r, { h with machine := s }) := by
  simp only [hostWriteSystem, hp, hl]

/-- The same for the program region. -/
theorem hostWriteProgram_beforeRun {h : Session} {bytes : List Byte} {r : LoadResult} {s : State}
    (hp : h.phase = .beforeRun) (hl : loadProgram h.machine bytes = (r, s)) :
    hostWriteProgram h bytes = .ok (r, { h with machine := s }) := by
  simp only [hostWriteProgram, hp, hl]

/-- Settles O37: a write longer than the region is rejected; one that fits fills from address 0. -/
theorem systemWriteFillsFromZero : Obligations.SystemWriteFillsFromZero := by
  intro h bytes hp hw
  constructor
  · intro hlong
    exact hostWriteSystem_beforeRun hp (loadRegion_err hlong)
  · intro hfits
    obtain ⟨m, hm, hin, hout⟩ := loadRegion_fills (base := 0) (room := 0x100) hw (by decide) hfits
    exact ⟨m, hostWriteSystem_beforeRun hp hm, fun k hk => by simpa using hin k hk, fun a ha => hout a (by omega)⟩

/-- Settles O38: a write past the end of memory is rejected; one that fits fills from address 0x100. -/
theorem programWriteFillsFromBase : Obligations.ProgramWriteFillsFromBase := by
  intro h bytes hp hw
  constructor
  · intro hlong
    exact hostWriteProgram_beforeRun hp (loadRegion_err (room := 0x1000 - 0x100) (by omega))
  · intro hfits
    obtain ⟨m, hm, hreads⟩ := loadRegion_fills (base := 0x100) (room := 0x1000 - 0x100) (bytes := bytes) hw
      (by decide) (by omega)
    exact ⟨m, hostWriteProgram_beforeRun hp hm, hreads⟩

end Sys2Proof.Machine
end

section
/-! SUPPORT. The step from Running, one equation per branch of the spec's pseudocode (40_execution_cycle.md rule R107):
which nibbles decode to which instruction, what the step then is, and what it can do to the fault record. -/

namespace Sys2Proof

section Nibbles
variable {w : Word}

/-- Rule R107's pattern for HALT. -/
theorem decode_eq_halt
    (h : (decodeFields w).c = 0x0 ∧ (decodeFields w).x = 0x0 ∧ (decodeFields w).y = 0x0 ∧ (decodeFields w).d = 0x0) :
    decode w = .ok .halt := by
  simp [decode, h]

/-- Rule R107's pattern for RET. -/
theorem decode_eq_ret
    (h : (decodeFields w).c = 0x0 ∧ (decodeFields w).x = 0x0 ∧ (decodeFields w).y = 0xE ∧ (decodeFields w).d = 0xE) :
    decode w = .ok .ret := by
  simp [decode, h]

/-- Rule R107's pattern for CALL. -/
theorem decode_eq_call (h : (decodeFields w).c = 0x2) : decode w = .ok (.call (decodeFields w).nnn) := by
  simp [decode, h]

/-- Rule R107's pattern for ADD. -/
theorem decode_eq_add (h : (decodeFields w).c = 0x8 ∧ (decodeFields w).d = 0x4) :
    decode w = .ok (.add (decodeFields w).x (decodeFields w).y) := by
  simp [decode, h]

end Nibbles

end Sys2Proof

namespace Sys2Proof.Machine

section Running
variable {s : State} (hr : s.status = .running)
include hr

/-- A `pc` above the last fetchable address raises FetchOutOfBounds. -/
theorem step_of_pc_gt (hp : 4094 < s.pc.toNat) :
    step s = .next (enterFault s .fetchOutOfBounds s.pc none) := by
  simp [step, hr, fetch_none.mpr hp, raiseFetchOutOfBounds, raise]

/-- A fetched word with a row of the opcode map runs its instruction on the advanced state. -/
theorem step_of_decode_ok {w : Word} {i : Instr} (hf : fetch s = some w) (hd : decode w = .ok i) :
    step s = exec i (advance s) := by
  simp [step, hr, hf, hd]

/-- A fetched word without one raises UnimplementedOpcode on the advanced state. -/
theorem step_of_decode_error {w : Word} {r : Reject} (hf : fetch s = some w) (hd : decode w = .error r) :
    step s = .next (enterFault (advance s) .unimplementedOpcode s.pc (some w)) := by
  simp [step, hr, hf, hd, raiseUnimplemented, raise]

/-- From Running, a meaning either enters a fault, changing the record and the status alone, or leaves the record and
ends in a status other than Faulted. -/
theorem exec_enters_or_keeps_fault {i : Instr} {t : State} (h : exec i s = .next t) :
    (∃ k a o, t = enterFault s k a o) ∨ (t.fault = s.fault ∧ t.status ≠ .faulted) := by
  rcases exec_cases i s with ⟨_, e⟩ | ⟨_, _, e⟩ | ⟨_, _, e⟩ | ⟨_, _, _, e⟩ | ⟨_, _, _, e⟩ | ⟨_, _, _, e⟩ <;>
    obtain rfl := Host.Outcome.next.inj (e.symm.trans h)
  · exact .inr ⟨rfl, by simp⟩
  · exact .inr ⟨rfl, by simp [hr]⟩
  · exact .inl ⟨_, _, _, rfl⟩
  · exact .inr ⟨rfl, by simp [hr]⟩
  · exact .inl ⟨_, _, _, rfl⟩
  · exact .inr ⟨rfl, by simp [hr, writeFlag]⟩

end Running

/-- Every meaning completes: it answers neither a fault nor a refusal. -/
theorem exec_total (i : Instr) (s : State) : ∃ t, exec i s = .next t := by
  rcases exec_cases i s with ⟨_, e⟩ | ⟨_, _, e⟩ | ⟨_, _, e⟩ | ⟨_, _, _, e⟩ | ⟨_, _, _, e⟩ | ⟨_, _, _, e⟩ <;>
    exact ⟨_, e⟩

/-- A step is taken exactly from Running. -/
theorem step_next_iff_running (s : State) : (∃ t, step s = .next t) ↔ s.status = .running := by
  refine ⟨fun ⟨_, h⟩ => (step_next h).1, fun hr => ?_⟩
  rcases step_cases s with ⟨hs, _⟩ | ⟨hs, _⟩ | ⟨_, _, e⟩ | ⟨_, _, _, _, _, _, e⟩ | ⟨_, _, _, i, _, _, e⟩
  · cases hr.symm.trans hs
  · cases hr.symm.trans hs
  · exact ⟨_, e⟩
  · exact ⟨_, e⟩
  · exact e ▸ exec_total i (advance s)

/-- A step that executes HALT ends Halted at the advanced `pc`, and changes nothing else (41_control.md rule R120). -/
theorem step_of_executes_halt {s : State} (h : Executes s .halt) : step s = .next (setStatus (advance s) .halted) := by
  obtain ⟨hr, _, hf, hd⟩ := h
  exact step_of_decode_ok hr hf hd

/-- A step that changes the fault record ends Faulted (60_exceptions.md rule R157). -/
theorem step_faulted_of_fault_ne {s t : State} (h : step s = .next t) (hne : t.fault ≠ s.fault) :
    t.status = .faulted := by
  obtain ⟨hr, ⟨_, _, rfl⟩ | ⟨_, _, _, _, _, rfl⟩ | ⟨_, i, _, he⟩⟩ := step_next h
  · rfl
  · rfl
  · obtain ⟨_, _, _, rfl⟩ | ⟨hkeep, _⟩ := exec_enters_or_keeps_fault (s := advance s) hr he
    · rfl
    · exact absurd hkeep hne

/-- A fault raised after the fetch leaves the advance in place (60_exceptions.md rule R157). -/
theorem step_faulted_pc {s t : State} (hp : s.pc.toNat ≤ 4094) (h : step s = .next t) (hft : t.status = .faulted) :
    t.pc = s.pc + 2 := by
  obtain ⟨hr, ⟨hp', _⟩ | ⟨_, _, _, _, _, rfl⟩ | ⟨_, i, _, he⟩⟩ := step_next h
  · omega
  · rfl
  · obtain ⟨_, _, _, rfl⟩ | ⟨_, hnot⟩ := exec_enters_or_keeps_fault (s := advance s) hr he
    · rfl
    · exact absurd hft hnot

/-- Settles O11: where steps start, what HALT's step leaves, and what a change of the fault record means. -/
theorem stepStartsOnlyWhenRunning : Obligations.StepStartsOnlyWhenRunning :=
  ⟨step_next_iff_running, fun _ h => ⟨_, step_of_executes_halt h, rfl, rfl⟩, fun _ _ => step_faulted_of_fault_ne⟩

/-- Settles O8: the fetch bounds `pc`, so the advance is exact; the rest is the step's equation for the word. -/
theorem stepRunsDecodedInstruction : Obligations.StepRunsDecodedInstruction := by
  intro s w hr hf
  have hp : s.pc.toNat ≤ 4094 := (fetch_some.mp hf).1
  have hadv : (advance s).pc.toNat = s.pc.toNat + 2 := advance_toNat hp
  exact ⟨rfl, hadv, by omega, fun _ => step_of_decode_ok hr hf,
    fun _ hd => ⟨_, step_of_decode_error hr hf hd, rfl, rfl⟩, fun _ => step_faulted_pc hp⟩

/-- Settles O9: one step equation per row of the pseudocode; a word of no row is one the decoder rejects. -/
theorem stepFollowsPseudocode : Obligations.StepFollowsPseudocode := by
  refine fun s hr => ⟨step_of_pc_gt hr, ?_⟩
  intro hp op s' c x y d nnn isHalt isRet isCall isAdd
  have hf : fetch s = some op := fetch_some.mpr ⟨hp, rfl⟩
  refine ⟨fun h => step_of_decode_ok hr hf (decode_eq_halt h), fun h => step_of_decode_ok hr hf (decode_eq_ret h),
    fun h => step_of_decode_ok hr hf (decode_eq_call h), fun h => step_of_decode_ok hr hf (decode_eq_add h), ?_⟩
  intro hHalt hRet hCall hAdd
  cases hd : decode op with
  | error r => exact step_of_decode_error hr hf hd
  | ok i =>
    obtain ⟨_, h⟩ | ⟨_, h⟩ | ⟨_, h⟩ | ⟨_, h⟩ := decode_cases hd
    · exact absurd h hHalt
    · exact absurd h hRet
    · exact absurd h hCall
    · exact absurd h hAdd

end Sys2Proof.Machine
end

section
/-! SUPPORT. The word a step fetched, from the instruction it executes: an instruction's word is the only one that
decodes to it (30_encoding.md rules R82 and R83). -/

namespace Sys2Proof

/-- A word is its four nibbles, most significant first (rule R82). -/
theorem decodeFields_nibbles_append (w : Word) :
    (decodeFields w).c ++ (decodeFields w).x ++ (decodeFields w).y ++ (decodeFields w).d = w := by
  simp only [decodeFields, BitVec.extractLsb'_append_extractLsb'_eq_extractLsb']
  exact BitVec.extractLsb'_eq_self

/-- A word is its opcode group and its address operand (rule R81). -/
theorem decodeFields_group_append (w : Word) : (decodeFields w).c ++ (decodeFields w).nnn = w := by
  simp only [decodeFields, BitVec.extractLsb'_append_extractLsb'_eq_extractLsb']
  exact BitVec.extractLsb'_eq_self

/-- CALL's word, as its fields. -/
theorem encode_call_eq_append (nnn : Addr) : encode (.call nnn) = 0x2#4 ++ nnn := rfl

/-- ADD's word, as its fields. -/
theorem encode_add_eq_append (x y : Nibble) : encode (.add x y) = 0x8#4 ++ x ++ y ++ 0x4#4 := by
  revert x y
  decide

/-- The decoder loses no bit: what it read encodes back to the word. -/
theorem encode_of_decode {w : Word} {i : Instr} (h : decode w = .ok i) : encode i = w := by
  have hw := decodeFields_nibbles_append w
  obtain ⟨rfl, hc, hx, hy, hd⟩ | ⟨rfl, hc, hx, hy, hd⟩ | ⟨rfl, hc⟩ | ⟨rfl, hc, hd⟩ := decode_cases h
  · rwa [hc, hx, hy, hd] at hw
  · rwa [hc, hx, hy, hd] at hw
  · have hg := decodeFields_group_append w
    rw [hc] at hg
    exact (encode_call_eq_append _).trans hg
  · rw [hc, hd] at hw
    exact (encode_add_eq_append _ _).trans hw

end Sys2Proof

namespace Sys2Proof.Machine

/-- The word at `pc` is the encoding of the instruction executed there. -/
theorem Executes.encode_eq {s : State} {i : Instr} (h : Executes s i) :
    encode i = Memory.readWord s.mem s.pc.toNat := by
  obtain ⟨_, w, hf, hd⟩ := h
  rw [encode_of_decode hd, (fetch_some.mp hf).2]

/-- A step that executes an instruction is its meaning on the advanced state (40_execution_cycle.md rule R103). -/
theorem Executes.step_eq {s : State} {i : Instr} (h : Executes s i) : step s = exec i (advance s) := by
  obtain ⟨hr, _, hf, hd⟩ := h
  exact step_of_decode_ok hr hf hd

end Sys2Proof.Machine
end

section
/-! SUPPORT. RET and CALL by the depth of the call stack: the entry popped or pushed, and the two stack faults of a
step (42_call_stack.md rules R125 to R128). -/

namespace Sys2Proof.Machine

/-- With `j + 1` live entries RET pops entry `j`. -/
theorem execRet_of_sp_eq_succ {s : State} {j : Fin 16} (h : s.sp.val = j.val + 1) :
    execRet s = .next { s with pc := stackEntry s j, sp := j.castSucc } := by
  rw [execRet_pop (by omega)]
  simp [stackEntry, h, Fin.ext_iff]

/-- With `j < 16` live entries CALL pushes into entry `j`. -/
theorem execCall_of_sp_eq {s : State} {nnn : Addr} {j : Fin 16} (h : s.sp.val = j.val) :
    execCall nnn s = .next { s with
      pc := BitVec.ofNat 16 nnn.toNat, stack := s.stack.set j.val s.pc, sp := j.succ } := by
  rw [execCall_push (by omega)]
  simp [targetAddr, h, Fin.ext_iff]

/-- A step that executes RET on an empty stack raises StackUnderflow at its address. -/
theorem Executes.step_ret_underflow {s : State} (hx : Executes s .ret) (h : s.sp.val = 0) :
    step s = .next (enterFault (advance s) .stackUnderflow s.pc (some (encode .ret))) := by
  rw [← instrAddr_advance s]
  exact hx.step_eq.trans (execRet_underflow h)

/-- A step that executes CALL on a full stack raises StackOverflow at its address, with the word fetched there. -/
theorem Executes.step_call_overflow {s : State} {nnn : Addr} (hx : Executes s (.call nnn)) (h : s.sp.val = 16) :
    step s = .next
      (enterFault (advance s) .stackOverflow s.pc (some (Memory.readWord s.mem s.pc.toNat))) := by
  rw [← hx.encode_eq, ← instrAddr_advance s]
  exact hx.step_eq.trans (execCall_overflow h)

/-- Settles O16: the meaning on a stack of depth `j + 1`, which a step runs on the advanced state; on an empty stack
the step's fault. -/
theorem retPopsReturnAddress : Obligations.RetPopsReturnAddress :=
  ⟨fun _ _ => execRet_of_sp_eq_succ,
    fun s _ hx hj => hx.step_eq.trans (execRet_of_sp_eq_succ (s := advance s) hj),
    fun _ hx h0 => hx.step_ret_underflow h0⟩

/-- Settles O17: the meaning on a stack of depth `j < 16`, which a step runs on the advanced state; on a full stack
the step's fault. -/
theorem callPushesReturnAddress : Obligations.CallPushesReturnAddress :=
  ⟨fun _ _ _ => execCall_of_sp_eq,
    fun s _ _ hx hj => hx.step_eq.trans (execCall_of_sp_eq (s := advance s) hj),
    fun _ _ hx hfull => hx.step_call_overflow hfull⟩

end Sys2Proof.Machine
end

section
/-! SUPPORT. ADD's wrapped sum and carry as the remainder and quotient of the exact sum by 256, the registers that
hold them (43_arithmetic.md rules R140 and R141), and the words beside ADD in its opcode group, which fault
(60_exceptions.md rule R153). -/

namespace Sys2Proof

/-- The opcode group is read back from its nibble: the other three end below bit 12 (30_encoding.md rule R82). -/
@[simp] theorem decodeFields_recombine_c (c x y d : Nibble) : (decodeFields (recombine c x y d)).c = c := by
  ext i hi
  simp (disch := omega) [recombine, decodeFields, BitVec.getLsbD_of_ge]

/-- The opcode subgroup is read back from its nibble: the other three are shifted to bit 4 or above. -/
@[simp] theorem decodeFields_recombine_d (c x y d : Nibble) : (decodeFields (recombine c x y d)).d = d := by
  ext i hi
  have h8 : i < 8 := by omega
  have h12 : i < 12 := by omega
  have h16 : i < 16 := by omega
  simp [recombine, decodeFields, hi, h8, h12, h16]

/-- A word of ADD's opcode group with another subgroup is no instruction: group 8 excludes every row but ADD's, and
the subgroup excludes that (rule R84). -/
theorem decode_recombine_group8 {x y d : Nibble} (hne : d ≠ 0x4) :
    decode (recombine 0x8 x y d) = .error (.unimplementedOpcode (recombine 0x8 x y d)) := by
  have hadd : ¬ d = 4#4 := hne
  simp [decode, hadd]

end Sys2Proof

namespace Sys2Proof.Machine

/-- The wrapped result is the exact sum's remainder by 256. -/
theorem sumByte_toNat (a b : Byte) : (sumByte a b).toNat = (a.toNat + b.toNat) % 256 := by
  simp [sumByte, exactSum]

/-- The carry is the exact sum's quotient by 256, which is at most 1 for two bytes. -/
theorem carryByte_toNat (a b : Byte) : (carryByte a b).toNat = (a.toNat + b.toNat) / 256 := by
  have ha := a.isLt
  have hb := b.isLt
  unfold carryByte exactSum
  split
  · change 1 = _
    omega
  · change 0 = _
    omega

/-- The carry is a bit (10_state.md rule R22). -/
theorem carryByte_toNat_eq_zero_or_one (a b : Byte) : (carryByte a b).toNat = 0 ∨ (carryByte a b).toNat = 1 := by
  unfold carryByte
  split
  · exact .inr rfl
  · exact .inl rfl

/-- Carry and result together are the exact 9-bit sum (rule R141). -/
theorem carryByte_sumByte_toNat (a b : Byte) :
    256 * (carryByte a b).toNat + (sumByte a b).toNat = a.toNat + b.toNat := by
  rw [carryByte_toNat, sumByte_toNat, Nat.div_add_mod]

/-- The registers after a write of Vx and then of the flag: the flag wins for `x = 0xF` (90_conflicts.md C5). -/
theorem readReg_writeFlag_writeReg (s : State) (x r : Nibble) (v f : Byte) :
    readReg (writeFlag (writeReg s x v) f) r = if r = 0xF then f else if r = x then v else readReg s r := by
  rw [writeFlag, readReg_writeReg, readReg_writeReg]

/-- ADD completes with the carry in VF and, unless that is Vx, the wrapped sum in Vx (rule R140). -/
theorem exec_add_writes (x y : Nibble) (s : State) :
    ∃ t, exec (.add x y) s = .next t ∧ readReg t 0xF = carryByte (readReg s x) (readReg s y) ∧
      (x ≠ 0xF → readReg t x = sumByte (readReg s x) (readReg s y)) := by
  refine ⟨_, rfl, ?_, fun hx => ?_⟩
  · exact (readReg_writeFlag_writeReg ..).trans (if_pos rfl)
  · exact (readReg_writeFlag_writeReg ..).trans ((if_neg hx).trans (if_pos rfl))

/-- Settles O19: the two bytes as quotient and remainder, the registers ADD leaves them in, and the step from a word
the decoder rejects. -/
theorem addIsNineBitSum : Obligations.AddIsNineBitSum := by
  refine ⟨fun a b => ⟨sumByte_toNat a b, carryByte_toNat a b, carryByte_toNat_eq_zero_or_one a b,
    carryByte_sumByte_toNat a b⟩, fun x y s => ?_, fun x y d hne => ?_⟩
  · obtain ⟨t, ht, hflag, hsum⟩ := exec_add_writes x y s
    refine ⟨t, ht, ?_, ?_, fun hx => ?_⟩
    · rw [hflag, carryByte_toNat]
    · rw [hflag]
      exact carryByte_toNat_eq_zero_or_one _ _
    · rw [hflag, hsum hx]
      exact ⟨sumByte_toNat _ _, carryByte_sumByte_toNat _ _⟩
  · have hd := decode_recombine_group8 (x := x) (y := y) hne
    exact ⟨hd, fun s hr hf => ⟨_, _, step_of_decode_error hr hf hd, rfl, rfl, rfl⟩⟩

end Sys2Proof.Machine
end

section
/-! SUPPORT. The words without a handler, counted as those the encoder does not reach: the decoder accepts exactly the
encoder's words, one for each instruction (30_encoding.md rules R83 and R84). -/

namespace Sys2Proof

open BitVec in
/-- Four nibbles joined to a word are read back as its fields (rule R82). -/
theorem decodeFields_append_nibbles (c x y d : Nibble) :
    (decodeFields (c ++ x ++ y ++ d)).c = c ∧ (decodeFields (c ++ x ++ y ++ d)).x = x ∧
      (decodeFields (c ++ x ++ y ++ d)).y = y ∧ (decodeFields (c ++ x ++ y ++ d)).d = d := by
  refine ⟨?_, ?_, ?_, extractLsb'_append_eq_right⟩
  · exact (extractLsb'_append_eq_of_le (by decide)).trans
      ((extractLsb'_append_eq_of_le (by decide)).trans extractLsb'_append_eq_left)
  · exact (extractLsb'_append_eq_of_le (by decide)).trans
      ((extractLsb'_append_eq_of_le (by decide)).trans extractLsb'_append_eq_right)
  · exact (extractLsb'_append_eq_of_le (by decide)).trans extractLsb'_append_eq_right

/-- The decoder accepts every instruction's word, with its operands. -/
theorem decode_encode (i : Instr) : decode (encode i) = .ok i := by
  cases i with
  | halt => rfl
  | ret => rfl
  | call nnn =>
    have hc : (decodeFields (0x2#4 ++ nnn)).c = 0x2 := BitVec.extractLsb'_append_eq_left
    have hn : (decodeFields (0x2#4 ++ nnn)).nnn = nnn := BitVec.extractLsb'_append_eq_right
    rw [encode_call_eq_append, decode_eq_call hc, hn]
  | add x y =>
    obtain ⟨hc, hx, hy, hd⟩ := decodeFields_append_nibbles 0x8#4 x y 0x4#4
    rw [encode_add_eq_append, decode_eq_add ⟨hc, hd⟩, hx, hy]

/-- No two instructions share a word. -/
theorem encode_injective : Function.Injective encode := fun i j h =>
  Except.ok.inj ((decode_encode i).symm.trans ((congrArg decode h).trans (decode_encode j)))

/-- The decoder rejects exactly the words that encode no instruction. -/
theorem decode_rejects_iff (w : Word) : (∃ r, decode w = .error r) ↔ w ∈ (Set.range encode)ᶜ := by
  constructor
  · rintro ⟨r, hr⟩ ⟨i, rfl⟩
    cases (decode_encode i).symm.trans hr
  · intro hw
    cases hd : decode w with
    | error r => exact ⟨r, rfl⟩
    | ok i => exact absurd ⟨i, encode_of_decode hd⟩ hw

/-- The instructions by mnemonic and operands. -/
def Instr.equivOperands : Instr ≃ Unit ⊕ Unit ⊕ Addr ⊕ Nibble × Nibble where
  toFun
    | .halt => .inl ()
    | .ret => .inr (.inl ())
    | .call nnn => .inr (.inr (.inl nnn))
    | .add x y => .inr (.inr (.inr (x, y)))
  invFun
    | .inl () => .halt
    | .inr (.inl ()) => .ret
    | .inr (.inr (.inl nnn)) => .call nnn
    | .inr (.inr (.inr (x, y))) => .add x y
  left_inv i := by cases i <;> rfl
  right_inv p := by rcases p with _ | _ | _ | ⟨_, _⟩ <;> rfl

theorem card_bitVec (n : Nat) : Nat.card (BitVec n) = 2 ^ n := by
  rw [Nat.card_congr BitVec.equivFin.toEquiv, Nat.card_fin]

/-- HALT, RET, a CALL per address and an ADD per pair of registers. -/
theorem Instr.card : Nat.card Instr = 1 + (1 + (2 ^ 12 + 2 ^ 4 * 2 ^ 4)) := by
  rw [Nat.card_congr Instr.equivOperands, Nat.card_sum, Nat.card_sum, Nat.card_sum, Nat.card_prod, Nat.card_unique,
    card_bitVec, card_bitVec]

/-- The 65536 words less one for each instruction. -/
theorem card_rejected_words : Nat.card { w : Word // ∃ r, decode w = .error r } = 61182 := by
  calc Nat.card { w : Word // ∃ r, decode w = .error r }
    _ = (Set.range encode)ᶜ.ncard := Nat.card_congr (Equiv.subtypeEquivRight decode_rejects_iff)
    _ = Nat.card Word - Nat.card Instr := by rw [Set.ncard_compl, Set.ncard_range_of_injective encode_injective]
    _ = 2 ^ 16 - (1 + (1 + (2 ^ 12 + 2 ^ 4 * 2 ^ 4))) := by rw [card_bitVec, Instr.card]
    _ = 61182 := rfl

end Sys2Proof
end

section
/-! SUPPORT. The one cause of each fault kind: from a state without a fault record, a step leaves a record of a kind
exactly when it meets that kind's cause (60_exceptions.md rules R151 to R155). -/

namespace Sys2Proof.Machine

/-- What makes a step from `s` raise a fault of a kind; nothing for the loader's error (rule R155). -/
def FaultCause (s : State) : FaultKind → Prop
  | .stackOverflow => ∃ nnn, Executes s (.call nnn) ∧ s.sp.val = 16
  | .stackUnderflow => Executes s .ret ∧ s.sp.val = 0
  | .unimplementedOpcode => MeetsUnimplemented s
  | .fetchOutOfBounds => 4094 < s.pc.toNat
  | .memoryWriteOutOfBounds => False

/-- A dispatched meaning writes a record only as RET on an empty stack or as CALL on a full one (42_call_stack.md
rules R125 and R126). -/
theorem Executes.faultCause {s t : State} {i : Instr} {r : FaultRecord} (hx : Executes s i) (hs : s.fault = none)
    (h : exec i (advance s) = .next t) (ht : t.fault = some r) : FaultCause s r.kind := by
  rcases exec_cases i (advance s) with ⟨_, e⟩ | ⟨_, _, e⟩ | ⟨hsp, rfl, e⟩ | ⟨_, _, _, e⟩ |
      ⟨nnn, hsp, rfl, e⟩ | ⟨_, _, _, e⟩ <;>
    obtain rfl := Host.Outcome.next.inj (e.symm.trans h)
  case inr.inr.inl =>
    obtain rfl := Option.some.inj ht
    exact ⟨hx, hsp⟩
  case inr.inr.inr.inr.inl =>
    obtain rfl := Option.some.inj ht
    exact ⟨nnn, hx, hsp⟩
  all_goals cases hs.symm.trans ht

/-- The kind of the record a step writes tells its cause. -/
theorem faultCause_of_step {s t : State} {r : FaultRecord} (hs : s.fault = none) (h : step s = .next t)
    (ht : t.fault = some r) : FaultCause s r.kind := by
  obtain ⟨hr, ⟨hp, _, rfl⟩ | ⟨_, w, e, hf, hd, rfl⟩ | ⟨_, i, hx, he⟩⟩ := step_next h
  · obtain rfl := Option.some.inj ht
    exact hp
  · obtain rfl := Option.some.inj ht
    exact ⟨hr, w, e, hf, hd⟩
  · exact hx.faultCause hs he ht

/-- From Running each cause raises its fault. -/
theorem FaultCause.raises {s : State} {k : FaultKind} (hr : s.status = .running) (hc : FaultCause s k) :
    ∃ s' a o, step s = .next (enterFault s' k a o) := by
  cases k with
  | stackOverflow =>
    obtain ⟨_, hx, hsp⟩ := hc
    exact ⟨_, _, _, hx.step_call_overflow hsp⟩
  | stackUnderflow =>
    obtain ⟨hx, hsp⟩ := hc
    exact ⟨_, _, _, hx.step_ret_underflow hsp⟩
  | unimplementedOpcode =>
    obtain ⟨_, _, _, hf, hd⟩ := hc
    exact ⟨_, _, _, step_of_decode_error hr hf hd⟩
  | fetchOutOfBounds => exact ⟨_, _, _, step_of_pc_gt hr hc⟩
  | memoryWriteOutOfBounds => exact hc.elim

/-- A step from a state without a record leaves one of a kind exactly when it meets that kind's cause. -/
theorem step_records_kind_iff {s t : State} {k : FaultKind} (hs : s.fault = none) (h : step s = .next t) :
    (∃ r, t.fault = some r ∧ r.kind = k) ↔ FaultCause s k := by
  constructor
  · rintro ⟨r, ht, rfl⟩
    exact faultCause_of_step hs h ht
  · intro hc
    obtain ⟨_, _, _, e⟩ := hc.raises (step_next h).1
    obtain rfl := Host.Outcome.next.inj (e.symm.trans h)
    exact ⟨_, rfl, rfl⟩

/-- Settles O5: the count of the words that encode no instruction, the fault such a word raises, and the cause of a
record of that kind. -/
theorem unimplementedWordsFault : Obligations.UnimplementedWordsFault := by
  refine ⟨card_rejected_words, fun s hm => ?_, fun s t r hs h ht hk => ?_⟩
  · obtain ⟨_, _, _, e⟩ := FaultCause.raises (k := .unimplementedOpcode) hm.1 hm
    exact ⟨_, _, e, rfl, rfl, rfl⟩
  · exact (step_records_kind_iff hs h).mp ⟨r, ht, hk⟩

/-- Settles O13: the causes of the two stack faults. -/
theorem stackFaultsHaveOneCause : Obligations.StackFaultsHaveOneCause :=
  fun _ _ hs h => ⟨step_records_kind_iff hs h, step_records_kind_iff hs h⟩

end Sys2Proof.Machine
end

section
/-! SUPPORT. What the state after construction reads as (70_reset_and_hazards.md rule R180). -/

namespace Sys2Proof.Machine

/-- Construction clears every register (10_state.md rule R35). -/
@[simp] theorem readReg_reset (i : Nibble) : readReg State.reset i = 0 :=
  Vector.getElem_replicate i.isLt

/-- Construction clears every stack entry, all of them dead (rule R35). -/
@[simp] theorem stackEntry_reset (j : Fin 16) : stackEntry State.reset j = 0 :=
  Vector.getElem_replicate j.isLt

/-- Construction lists no byte, so every address reads as the reset value (20_memory.md rule R47). -/
@[simp] theorem Memory.read_reset (a : Nat) : Memory.read State.reset.mem a = 0 :=
  Memory.read_nil a

/-- Settles O36: the reads of the three arrays for every index; the other fields are construction's own values. -/
theorem resetStateIsAllZero : Obligations.ResetStateIsAllZero :=
  ⟨rfl, readReg_reset, fun a _ => Memory.read_reset a, stackEntry_reset, rfl, rfl, rfl, rfl⟩

end Sys2Proof.Machine
end

section
/-! SUPPORT. The encoder and the decoder as inverses, the opcode map read off the decoder, and the assembler's lines
(30_encoding.md sections 1 to 3). -/

namespace Sys2Proof

/-- Settles O1: the decoder evaluated on each word. -/
theorem writtenWordsDecode : Obligations.WrittenWordsDecode := by
  unfold Obligations.WrittenWordsDecode
  decide

/-- An instruction's two bytes at the head of a sequence are read as that instruction (rule R80). -/
theorem decodeBytes_encodeBytes_append (i : Instr) (rest : List Byte) :
    decodeBytes (encodeBytes i ++ rest) = .ok (i, rest) := by
  simp [encodeBytes, decodeBytes, decode_encode]

/-- Settles O2: the decoder inverts the encoder on words, and a word is made of its two bytes. -/
theorem decodeEncodeRoundTrip : Obligations.DecodeEncodeRoundTrip :=
  fun i rest => ⟨decode_encode i, decodeBytes_encodeBytes_append i rest⟩

/-- Settles O3: the decoder loses no bit. -/
theorem decodedWordsReencode : Obligations.DecodedWordsReencode :=
  fun _ _ => encode_of_decode

/-- The words that decode to an instruction are its encoding alone. -/
theorem decode_eq_ok_iff {w : Word} {i : Instr} : decode w = .ok i ↔ w = encode i :=
  ⟨fun h => (encode_of_decode h).symm, fun h => h ▸ decode_encode i⟩

/-- Group 2 is exactly the CALLs, with the low 12 bits as the target (rule R83). -/
theorem decode_eq_call_iff {w : Word} {nnn : Addr} :
    decode w = .ok (.call nnn) ↔ (decodeFields w).c = 0x2 ∧ nnn = (decodeFields w).nnn := by
  constructor
  · intro h
    obtain ⟨hi, _⟩ | ⟨hi, _⟩ | ⟨hi, hc⟩ | ⟨hi, _⟩ := decode_cases h <;> cases hi
    exact ⟨hc, rfl⟩
  · rintro ⟨hc, rfl⟩
    exact decode_eq_call hc

/-- Group 8 with subgroup 4 is exactly the ADDs, with the two nibbles between as the registers (rule R83). -/
theorem decode_eq_add_iff {w : Word} {x y : Nibble} :
    decode w = .ok (.add x y) ↔
      ((decodeFields w).c = 0x8 ∧ (decodeFields w).d = 0x4) ∧ x = (decodeFields w).x ∧ y = (decodeFields w).y := by
  constructor
  · intro h
    obtain ⟨hi, _⟩ | ⟨hi, _⟩ | ⟨hi, _⟩ | ⟨hi, hcd⟩ := decode_cases h <;> cases hi
    exact ⟨hcd, rfl, rfl⟩
  · rintro ⟨hcd, rfl, rfl⟩
    exact decode_eq_add hcd

/-- CALL's row of the opcode map reads the group nibble alone. -/
theorem and_call_mask_iff (w : Word) : w &&& 0xF000 = 0x2000 ↔ (decodeFields w).c = 0x2 := by
  have hmask : w &&& 0xF000 = (decodeFields w).c ++ 0#12 := by
    conv_lhs => rw [← decodeFields_group_append w]
    refine (BitVec.and_append (x₂ := BitVec.allOnes 4) (y₂ := 0#12)).trans ?_
    rw [BitVec.and_allOnes, BitVec.and_zero]
  rw [hmask]
  exact BitVec.append_left_inj (s₂ := 0x2#4) 0#12

/-- ADD's row reads the group and the subgroup nibble. -/
theorem and_add_mask_iff (w : Word) :
    w &&& 0xF00F = 0x8004 ↔ (decodeFields w).c = 0x8 ∧ (decodeFields w).d = 0x4 := by
  have hmask : w &&& 0xF00F = (decodeFields w).c ++ 0#4 ++ 0#4 ++ (decodeFields w).d := by
    conv_lhs => rw [← decodeFields_nibbles_append w]
    refine (BitVec.and_append (x₂ := BitVec.allOnes 4 ++ 0#4 ++ 0#4) (y₂ := BitVec.allOnes 4)).trans ?_
    rw [BitVec.and_append, BitVec.and_append]
    simp only [BitVec.and_allOnes, BitVec.and_zero]
  rw [hmask]
  constructor
  · intro h
    obtain ⟨hc, _, _, hd⟩ := decodeFields_append_nibbles (decodeFields w).c 0#4 0#4 (decodeFields w).d
    rw [h] at hc hd
    exact ⟨hc.symm, hd.symm⟩
  · rintro ⟨hc, hd⟩
    rw [hc, hd]
    rfl

/-- HALT's and RET's rows fix every bit. -/
theorem and_full_mask (w : Word) : w &&& 0xFFFF = w := BitVec.and_allOnes

/-- Two rows that match one word are one row: two different rows differ in a bit that both fix. -/
theorem opcodeMap_match_unique (w : Word) :
    ∀ r ∈ opcodeMap, ∀ r' ∈ opcodeMap, r.matches w = true → r'.matches w = true → r = r' := by
  have hsep {r r' : OpcodeRow} (h : (r.pattern ^^^ r'.pattern) &&& r.mask &&& r'.mask ≠ 0)
      (hm : r.matches w = true) (hm' : r'.matches w = true) : False := by
    simp only [OpcodeRow.matches, decide_eq_true_eq] at hm hm'
    apply h
    rw [← hm, ← hm']
    ext k hk
    cases hw : w[k] <;> cases hr : r.mask[k] <;> simp [hw, hr]
  refine List.Pairwise.forall_of_forall_of_flip (fun _ _ _ _ => rfl) ?_ ?_
  · exact opcodeMap_disjoint.imp fun h hm hm' => (hsep h hm hm').elim
  · exact opcodeMap_disjoint.imp fun h hm hm' => (hsep h hm' hm).elim

/-- As many words have a decoding of a given form as there are instructions of that form. -/
theorem card_words_decoding {α : Type} {P : Word → Prop} (f : α → Instr) (hf : Function.Injective f)
    (hP : ∀ w, P w ↔ ∃ a, decode w = .ok (f a)) : Nat.card { w // P w } = Nat.card α := by
  have hrange : ∀ w, P w ↔ w ∈ Set.range (encode ∘ f) := fun w =>
    (hP w).trans (exists_congr fun _ => decode_eq_ok_iff.trans eq_comm)
  calc Nat.card { w // P w }
    _ = (Set.range (encode ∘ f)).ncard := Nat.card_congr (Equiv.subtypeEquivRight hrange)
    _ = Nat.card α := Set.ncard_range_of_injective (encode_injective.comp hf)

/-- Settles O4: each row's mask as the nibbles the decoder tests, the rows' disjointness, and the words of a form
counted by their operands. -/
theorem decodeFollowsOpcodeMap : Obligations.DecodeFollowsOpcodeMap := by
  refine ⟨fun w => ⟨?_, ?_, fun nnn => ?_, fun x y => ?_, opcodeMap_match_unique w⟩, ?_, ?_, ?_, ?_, ?_, card_bitVec 16⟩
  · rw [and_full_mask]
    exact decode_eq_ok_iff
  · rw [and_full_mask]
    exact decode_eq_ok_iff
  · rw [and_call_mask_iff]
    exact decode_eq_call_iff
  · rw [and_add_mask_iff]
    exact decode_eq_add_iff
  · exact (card_words_decoding (fun _ : Unit => .halt) (Function.injective_of_subsingleton _) (by simp)).trans
      Nat.card_unique
  · exact (card_words_decoding (fun _ : Unit => .ret) (Function.injective_of_subsingleton _) (by simp)).trans
      Nat.card_unique
  · exact (card_words_decoding .call (fun _ _ => Instr.call.inj) fun _ => Iff.rfl).trans (card_bitVec 12)
  · have hinj : Function.Injective fun p : Nibble × Nibble => Instr.add p.1 p.2 :=
      fun _ _ h => Prod.ext_iff.mpr (Instr.add.inj h)
    have hcard : Nat.card (Nibble × Nibble) = 256 := by rw [Nat.card_prod, card_bitVec]; rfl
    exact (card_words_decoding _ hinj (by simp)).trans hcard
  · exact (card_words_decoding id Function.injective_id fun _ => Iff.rfl).trans Instr.card

/-- The decoder's shifts and joins put the four nibbles side by side. -/
theorem recombine_eq_append (c x y d : Nibble) : recombine c x y d = c ++ x ++ y ++ d := by
  have h := BitVec.setWidth_append_append_append_eq_shiftLeft_setWidth_or (w'''' := 16) (b := c) (b' := x)
    (b'' := y) (b''' := d)
  rw [recombine]
  exact h.symm.trans (BitVec.setWidth_eq _)

/-- Settles O6: the nibbles side by side are the word; the wider fields are remainders of the word by a power of 2,
whose quotients by 16 are the nibbles. -/
theorem fieldsRecombine : Obligations.FieldsRecombine := by
  intro op f
  refine ⟨(recombine_eq_append ..).trans (decodeFields_nibbles_append op), ?_, ?_⟩
  · simp only [f, decodeFields, BitVec.extractLsb'_toNat, Nat.shiftRight_eq_div_pow]
    omega
  · simp only [f, decodeFields, BitVec.extractLsb'_toNat, Nat.shiftRight_eq_div_pow]
    omega

/-- A line whose numbers break rule R88's constraints emits nothing. -/
theorem assemble_of_not_wf {l : AsmLine} (h : l.wf = false) : assemble l = none := by
  simp [assemble, h]

/-- The line that spells an instruction emits its word: its numbers are the operands' values. -/
theorem assemble_toAsm (i : Instr) : assemble i.toAsm = some (encode i) := by
  have hwf : i.toAsm.wf = true := i.wf_all
  unfold assemble
  rw [if_pos hwf]
  cases i <;> simp [Instr.toAsm]

/-- Settles O7: the well-formed lines by the word they emit, the ill-formed ones by the constraint they break. -/
theorem assemblerEmitsEncoding : Obligations.AssemblerEmitsEncoding := by
  refine ⟨assemble_toAsm, fun w => ?_, fun n hn => ?_, fun x y hxy => ?_, fun n hn => ?_⟩
  · have hw : w.toNat ≤ 0xFFFF := Nat.le_of_lt_succ w.isLt
    simp [assemble, AsmLine.wf, hw]
  · exact assemble_of_not_wf (decide_eq_false (by omega))
  · refine assemble_of_not_wf ?_
    simp only [AsmLine.wf, Bool.and_eq_false_iff, decide_eq_false_iff_not]
    omega
  · exact assemble_of_not_wf (decide_eq_false (by omega))

end Sys2Proof
end

section
/-! SUPPORT. Each meaning's result and frame, the steps that raise a fault, and the steps that run a word put at `pc`
(41_control.md, 42_call_stack.md, 43_arithmetic.md and 60_exceptions.md). -/

namespace Sys2Proof.Machine

/-- Settles O14: one step equation per fault kind; the recorded word of a stack fault is the one fetched. -/
theorem faultsArePrecise : Obligations.FaultsArePrecise := by
  refine fun s hr => ⟨step_of_pc_gt hr, fun w r hf hd => step_of_decode_error hr hf hd, ?_, ?_⟩
  · intro w nnn hf hd hfull
    obtain ⟨_, rfl⟩ := fetch_some.mp hf
    exact Executes.step_call_overflow ⟨hr, _, hf, hd⟩ hfull
  · intro w hf hd h0
    obtain rfl := encode_of_decode hd
    exact Executes.step_ret_underflow ⟨hr, _, hf, hd⟩ h0

/-- Settles O15: HALT's meaning, which a step runs on the advanced state. -/
theorem haltEndsTheRun : Obligations.HaltEndsTheRun :=
  ⟨fun _ => rfl, fun _ => step_of_executes_halt⟩

/-- Settles O18: the registers after the write of Vx and then of the flag. -/
theorem addWritesSumAndCarry : Obligations.AddWritesSumAndCarry :=
  fun _ _ _ => ⟨_, rfl, rfl, fun _ => readReg_writeFlag_writeReg ..⟩

/-- Settles O20: per branch of each meaning, the fields it does not name; a push fills the slot at `sp`, an ADD
writes its Vx and VF. -/
theorem instructionFrame : Obligations.InstructionFrame := by
  intro i s t h
  rcases exec_cases i s with ⟨rfl, e⟩ | ⟨hsp, rfl, e⟩ | ⟨hsp, rfl, e⟩ | ⟨nnn, hsp, rfl, e⟩ | ⟨nnn, hsp, rfl, e⟩ |
      ⟨x, y, rfl, e⟩ <;>
    obtain rfl := Host.Outcome.next.inj (e.symm.trans h)
  · exact ⟨fun _ _ => rfl, fun _ _ => rfl, fun _ => ⟨rfl, rfl⟩, fun _ => .inl rfl, (absurd rfl ·), fun _ => rfl⟩
  · exact ⟨fun _ _ => rfl, fun _ _ => rfl, by simp [hsp.ne'], (absurd rfl ·), (absurd rfl ·), fun _ => rfl⟩
  · have hcause : Instr.ret = .ret ∧ s.sp.val = 0 := ⟨rfl, hsp⟩
    exact ⟨fun _ _ => rfl, fun _ _ => rfl, fun _ => ⟨rfl, rfl⟩, fun _ => .inr (.inl hcause), fun _ => .inl hcause,
      fun _ => rfl⟩
  · refine ⟨fun _ _ => rfl, fun j hj => ?_, by simp [hsp.ne], (absurd rfl ·), (absurd rfl ·), fun _ => rfl⟩
    exact Vector.getElem_set_ne hsp j.isLt fun hj' => hj ⟨nnn, rfl, hj'.symm⟩
  · have hcause : ∃ nnn', Instr.call nnn = .call nnn' ∧ s.sp.val = 16 := ⟨nnn, rfl, hsp⟩
    exact ⟨fun _ _ => rfl, fun _ _ => rfl, fun _ => ⟨rfl, rfl⟩, fun _ => .inr (.inr hcause), fun _ => .inr hcause,
      fun _ => rfl⟩
  · refine ⟨fun r hr => ?_, fun _ _ => rfl, fun _ => ⟨rfl, rfl⟩, (absurd rfl ·), (absurd rfl ·), fun _ => rfl⟩
    rw [readReg_writeFlag_writeReg, if_neg fun hF => hr ⟨x, y, rfl, .inr hF⟩,
      if_neg fun hx => hr ⟨x, y, rfl, .inl hx⟩]

/-- A zero word at a fetchable `pc` executes HALT. -/
theorem executes_halt_of_zero {s : State} (hr : s.status = .running) (hp : s.pc.toNat ≤ 4094)
    (hhi : Memory.read s.mem s.pc.toNat = 0) (hlo : Memory.read s.mem (s.pc.toNat + 1) = 0) : Executes s .halt := by
  refine ⟨hr, _, fetch_some.mpr ⟨hp, rfl⟩, ?_⟩
  rw [Memory.readWord, hhi, hlo]
  rfl

/-- Settles O42: zero bytes are HALT's word; a new block's memory reads as zero. -/
theorem zeroMemoryHalts : Obligations.ZeroMemoryHalts :=
  ⟨fun _ hr hp hhi hlo => step_of_executes_halt (executes_halt_of_zero hr hp hhi hlo),
    step_of_executes_halt (executes_halt_of_zero rfl (Nat.zero_le _) (Memory.read_reset _) (Memory.read_reset _))⟩

/-- A word stored most significant byte first is read back as a word. -/
theorem Memory.readWord_writeBytes {m : Memory} {a : Nat} (w : Word) (hm : Memory.wf m = true)
    (ha : a + 2 ≤ Config.memSize) : Memory.readWord (Memory.writeBytes m a [hiByte w, loByte w]) a = w := by
  obtain ⟨hread, _⟩ := Memory.read_writeBytes (vs := [hiByte w, loByte w]) hm ha
  have h0 := hread 0 Nat.zero_lt_two
  have h1 := hread 1 Nat.one_lt_two
  rw [Nat.add_zero] at h0
  rw [Memory.readWord, h0, h1]
  exact wordOfBytes_bytes w

/-- A state made ready has its `pc` where a fetch can start. -/
theorem readyToFetch_pc_le (s : State) : (readyToFetch s).pc.toNat ≤ 4094 := by
  by_cases h : s.pc.toNat ≤ 4094
  · simp [readyToFetch, h]
  · simp [readyToFetch, h]

/-- A state that can fetch is ready as it is. -/
theorem readyToFetch_eq_self {s : State} (hr : s.status = .running) (hp : s.pc.toNat ≤ 4094) :
    readyToFetch s = s := by
  rw [readyToFetch, if_pos hp, if_pos hr, ← hr]

/-- A state given a word to fetch executes the instruction the word decodes to. -/
theorem executes_withFetchWord {s : State} {w : Nat} {i : Instr} (hm : Memory.wf s.mem = true)
    (hd : decodeTableWord 16 w = some i) : Executes (s.withFetchWord 16 w) i := by
  have hp : (s.withFetchWord 16 w).pc.toNat ≤ 4094 := readyToFetch_pc_le s
  have hword := Memory.readWord_writeBytes (m := s.mem) (a := (readyToFetch s).pc.toNat) (tableWord 16 w) hm
    (Nat.add_le_add_right hp 2)
  exact ⟨rfl, _, fetch_some.mpr ⟨hp, hword⟩, decodeTableWord_eq_some.mp hd⟩

/-- Settles O41: the stored word is fetched and dispatched; only the two bytes at `pc` are written. -/
theorem fetchWordRunsNext : Obligations.FetchWordRunsNext := by
  intro s w i hm hd r
  have hx : Executes r i := executes_withFetchWord hm hd
  refine ⟨hx, hx.step_eq, rfl, rfl, rfl, fun a ha ha' => ?_, fun hr hp => ?_⟩
  · have hp : r.pc.toNat ≤ 4094 := hx.pc_le
    obtain ⟨_, hframe⟩ := Memory.read_writeBytes (a := r.pc.toNat)
      (vs := [hiByte (tableWord 16 w), loByte (tableWord 16 w)]) hm (Nat.add_le_add_right hp 2)
    exact hframe a (show a < r.pc.toNat ∨ r.pc.toNat + 2 ≤ a by omega)
  · simp [r, State.withFetchWord, readyToFetch_eq_self hr hp]

/-- Settles O40: each operation by the phase it is allowed in. -/
theorem hostLifecycle : Obligations.HostLifecycle := by
  refine fun h => ⟨fun hp => ⟨fun i v => ?_, fun b => ?_, ?_⟩, fun hp => ⟨?_, ?_, ?_, ?_⟩⟩
  · exact ⟨{ h with machine := writeReg h.machine i v }, by simp [hostRegWrite, hp], hp,
      fun j => readReg_writeReg .., rfl⟩
  · exact ⟨(runLoop b h.machine).1, ⟨(runLoop b h.machine).2, .afterRun⟩, by simp only [hostRun, hp], rfl, rfl⟩
  · simp only [hostObserve, hp]
  · simp only [hostRegWrite, hp, implies_true]
  · simp only [hostWriteSystem, hp, implies_true]
  · simp only [hostWriteProgram, hp, implies_true]
  · simp only [hostRun, hp, implies_true]

end Sys2Proof.Machine
end

section
/-! SUPPORT. What a step does to the whole state, one case per effect (40_execution_cycle.md rule R107): the invariants
and the frame of every step follow from it case by case. -/

namespace Sys2Proof.Machine

/-- The effects a step can have; the stack effects speak of the entry they pop or push. -/
inductive StepEffect (s : State) : State → Prop
  /-- FetchOutOfBounds, the one fault before the advance. -/
  | fetchFault (hr : s.status = .running) (hp : 4094 < s.pc.toNat) :
      StepEffect s (enterFault s .fetchOutOfBounds s.pc none)
  /-- A fault at dispatch, after the advance. -/
  | dispatchFault {k : FaultKind} {w : Word} (hr : s.status = .running) (hf : fetch s = some w)
      (hc : FaultCause s k) : StepEffect s (enterFault (advance s) k s.pc (some w))
  /-- HALT. -/
  | halt (hx : Executes s .halt) : StepEffect s (setStatus (advance s) .halted)
  /-- RET on a stack of depth `j + 1`. -/
  | pop {j : Fin 16} (hx : Executes s .ret) (hj : s.sp.val = j.val + 1) :
      StepEffect s { s with pc := stackEntry s j, sp := j.castSucc }
  /-- CALL on a stack of depth `j < 16`. -/
  | push {nnn : Addr} {j : Fin 16} (hx : Executes s (.call nnn)) (hj : s.sp.val = j.val) :
      StepEffect s { s with
        pc := targetAddr nnn, stack := s.stack.set j.val (s.pc + 2), sp := j.succ }
  /-- ADD. -/
  | add {x y : Nibble} (hx : Executes s (.add x y)) :
      StepEffect s (writeFlag (writeReg (advance s) x (sumByte (readReg s x) (readReg s y)))
        (carryByte (readReg s x) (readReg s y)))

/-- A running state has an effect: the case split of the step itself. -/
theorem exists_stepEffect {s : State} (hr : s.status = .running) : ∃ t, StepEffect s t := by
  have hsp := s.sp.isLt
  cases hf : fetch s with
  | none => exact ⟨_, .fetchFault hr (fetch_none.mp hf)⟩
  | some w =>
    cases hd : decode w with
    | error r => exact ⟨_, .dispatchFault (k := .unimplementedOpcode) hr hf ⟨hr, w, r, hf, hd⟩⟩
    | ok i =>
      have hx : Executes s i := ⟨hr, w, hf, hd⟩
      cases i with
      | halt => exact ⟨_, .halt hx⟩
      | ret =>
        by_cases h0 : s.sp.val = 0
        · exact ⟨_, .dispatchFault (k := .stackUnderflow) hr hf ⟨hx, h0⟩⟩
        · exact ⟨_, .pop (j := ⟨s.sp.val - 1, by omega⟩) hx (Nat.succ_pred h0).symm⟩
      | call nnn =>
        by_cases hfull : s.sp.val = 16
        · exact ⟨_, .dispatchFault (k := .stackOverflow) hr hf ⟨nnn, hx, hfull⟩⟩
        · exact ⟨_, .push (j := ⟨s.sp.val, by omega⟩) hx rfl⟩
      | add x y => exact ⟨_, .add hx⟩

/-- A fault at dispatch is raised by its cause, under the word fetched. -/
theorem FaultCause.step_eq {s : State} {k : FaultKind} {w : Word} (hr : s.status = .running)
    (hf : fetch s = some w) (hc : FaultCause s k) : step s = .next (enterFault (advance s) k s.pc (some w)) := by
  obtain ⟨hp, rfl⟩ := fetch_some.mp hf
  cases k with
  | stackOverflow =>
    obtain ⟨_, hx, hfull⟩ := hc
    exact hx.step_call_overflow hfull
  | stackUnderflow =>
    obtain ⟨hx, h0⟩ := hc
    exact hx.encode_eq ▸ hx.step_ret_underflow h0
  | unimplementedOpcode =>
    obtain ⟨_, w, r, hf', hd⟩ := hc
    obtain rfl := Option.some.inj (hf.symm.trans hf')
    exact step_of_decode_error hr hf hd
  | fetchOutOfBounds => exact absurd hc (Nat.not_lt.mpr hp)
  | memoryWriteOutOfBounds => exact hc.elim

/-- CALL's target as the value of its operand. -/
theorem targetAddr_eq_ofNat (nnn : Addr) : targetAddr nnn = BitVec.ofNat 16 nnn.toNat :=
  (BitVec.ofNat_toNat ..).symm

/-- The effects of a state are exactly its step. -/
theorem step_next_iff_effect {s t : State} : step s = .next t ↔ StepEffect s t := by
  have hstep : ∀ {t}, StepEffect s t → step s = .next t := fun h => by
    cases h with
    | fetchFault hr hp => exact step_of_pc_gt hr hp
    | dispatchFault hr hf hc => exact hc.step_eq hr hf
    | halt hx => exact hx.step_eq
    | pop hx hj => exact hx.step_eq.trans (execRet_of_sp_eq_succ (s := advance s) hj)
    | @push nnn j hx hj =>
      rw [targetAddr_eq_ofNat]
      exact hx.step_eq.trans (execCall_of_sp_eq (s := advance s) hj)
    | add hx => exact hx.step_eq
  refine ⟨fun h => ?_, hstep⟩
  obtain ⟨t', h'⟩ := exists_stepEffect (step_next h).1
  obtain rfl := Host.Outcome.next.inj ((hstep h').symm.trans h)
  exact h'

/-- The word at `pc` decodes to the instruction executed there. -/
theorem Executes.decode_readWord {s : State} {i : Instr} (h : Executes s i) :
    decode (Memory.readWord s.mem s.pc.toNat) = .ok i := by
  rw [← h.encode_eq, decode_encode]

/-- The return address of an executed CALL is exact. -/
theorem Executes.pc_add_two_toNat {s : State} {i : Instr} (h : Executes s i) : (s.pc + 2).toNat = s.pc.toNat + 2 :=
  advance_toNat h.pc_le

/-- The stack after a push: the return address in the slot that was free. -/
theorem stackEntry_push (s : State) (pc v : Word) (sp : Fin 17) (j i : Fin 16) :
    stackEntry { s with pc := pc, stack := s.stack.set j.val v, sp := sp } i = if i = j then v else stackEntry s i := by
  simp only [stackEntry, Vector.getElem_set, Fin.ext_iff, eq_comm]

/-! ### Registers -/

/-- Settles O21: every effect but ADD's keeps the registers, and ADD writes its Vx and VF. -/
theorem onlyAddWritesRegisters : Obligations.OnlyAddWritesRegisters := by
  intro s t r h hne
  cases step_next_iff_effect.mp h with
  | @add x y hx =>
    refine ⟨x, y, hx, ?_⟩
    by_contra hr
    rw [not_or] at hr
    rw [readReg_writeFlag_writeReg, if_neg hr.2, if_neg hr.1] at hne
    exact hne rfl
  | _ => exact absurd rfl hne

/-- The carry is a bit, as a register value. -/
theorem carryByte_eq_zero_or_one (a b : Byte) : carryByte a b = 0 ∨ carryByte a b = 1 :=
  (carryByte_toNat_eq_zero_or_one a b).imp BitVec.eq_of_toNat_eq BitVec.eq_of_toNat_eq

/-- Settles O22: ADD leaves the carry in VF, and every other effect leaves VF as it was. -/
theorem carryFlagStaysBit : Obligations.CarryFlagStaysBit := by
  have hflag (s : State) (x : Nibble) (v a b : Byte) :
      readReg (writeFlag (writeReg s x v) (carryByte a b)) 0xF = 0 ∨
        readReg (writeFlag (writeReg s x v) (carryByte a b)) 0xF = 1 := by
    rw [readReg_writeFlag_writeReg, if_pos rfl]
    exact carryByte_eq_zero_or_one a b
  refine ⟨fun s x y hx => ⟨_, step_next_iff_effect.mpr (.add hx), hflag ..⟩, fun s t h hbit => ?_⟩
  cases step_next_iff_effect.mp h with
  | add => exact hflag ..
  | _ => exact hbit

/-- Settles O23: the same effect, whose cause no register shows. -/
theorem controlFlowIgnoresRegisters : Obligations.ControlFlowIgnoresRegisters := by
  intro s t s' hst h
  unfold AgreeOffRegs at hst
  generalize t.regs = regs at hst
  subst hst
  simp only [step_next_iff_effect] at h ⊢
  cases h with
  | fetchFault hr hp => exact ⟨_, .fetchFault hr hp, rfl⟩
  | dispatchFault hr hf hc => exact ⟨_, .dispatchFault hr hf hc, rfl⟩
  | halt hx => exact ⟨_, .halt hx, rfl⟩
  | pop hx hj => exact ⟨_, .pop hx hj, rfl⟩
  | push hx hj => exact ⟨_, .push (s := { s with regs := regs }) hx hj, rfl⟩
  | add hx => exact ⟨_, .add hx, rfl⟩

/-! ### Invariants -/

/-- A fault's record agrees with the status it leaves. -/
theorem faultAgrees_enterFault {s : State} {k : FaultKind} {a : Word} {o : Option Word}
    (hk : k ≠ .memoryWriteOutOfBounds) (ho : o = none ↔ k = .fetchOutOfBounds) : FaultAgrees (enterFault s k a o) :=
  ⟨rfl, rfl, hk, ho⟩

/-- Without a record every status but Faulted agrees. -/
theorem faultAgrees_of_fault_eq_none {s : State} (hf : s.fault = none) (hs : s.status ≠ .faulted) :
    FaultAgrees s := by
  rw [FaultAgrees, hf]
  exact hs

/-- A record is there only in status Faulted. -/
theorem FaultAgrees.fault_eq_none {s : State} (h : FaultAgrees s) (hr : s.status = .running) : s.fault = none := by
  cases hf : s.fault with
  | none => rfl
  | some r =>
    rw [FaultAgrees, hf] at h
    cases hr.symm.trans h.1

/-- A Faulted state holds a record. -/
theorem FaultAgrees.exists_record {s : State} (h : FaultAgrees s) (hs : s.status = .faulted) :
    ∃ r, s.fault = some r := by
  cases hf : s.fault with
  | some r => exact ⟨r, rfl⟩
  | none =>
    rw [FaultAgrees, hf] at h
    exact absurd hs h

/-- Only a fetch above 4094 raises FetchOutOfBounds, and nothing raises the loader's error. -/
theorem FaultCause.kind_ne {s : State} {k : FaultKind} {w : Word} (hf : fetch s = some w) (hc : FaultCause s k) :
    k ≠ .fetchOutOfBounds ∧ k ≠ .memoryWriteOutOfBounds := by
  constructor
  · rintro rfl
    exact absurd hc (Nat.not_lt.mpr (fetch_some.mp hf).1)
  · rintro rfl
    exact hc

/-- Settles O26: a fault writes a record of its kind; the other effects start from no record, leave none, and set `pc`
to an advance of a fetchable `pc`, a 12-bit target or a stack entry. -/
theorem stepKeepsInvariant : Obligations.StepKeepsInvariant := by
  intro s t ⟨hmem, hpc, hstack, hfault⟩ h
  have hadv (hp : s.pc.toNat ≤ 4094) : (s.pc + 2).toNat ≤ 4096 := (advance_toNat hp).trans_le (by omega)
  have hrec {u : State} (hr : s.status = .running) (hu : u.fault = s.fault) (hs : u.status ≠ .faulted) :
      FaultAgrees u := faultAgrees_of_fault_eq_none (hu.trans (hfault.fault_eq_none hr)) hs
  cases step_next_iff_effect.mp h with
  | fetchFault hr hp => exact ⟨hmem, hpc, hstack, faultAgrees_enterFault (by decide) (by simp)⟩
  | dispatchFault hr hf hc =>
    obtain ⟨hk, hk'⟩ := hc.kind_ne hf
    exact ⟨hmem, hadv (fetch_some.mp hf).1, hstack, faultAgrees_enterFault hk' (by simp [hk])⟩
  | halt hx => exact ⟨hmem, hadv hx.pc_le, hstack, hrec hx.1 rfl (by simp)⟩
  | @pop j hx hj => exact ⟨hmem, hstack j, hstack, hrec hx.1 rfl (by simp [hx.1])⟩
  | @push nnn j hx hj =>
    refine ⟨hmem, ?_, fun i => ?_, hrec hx.1 rfl (by simp [hx.1])⟩
    · exact (targetAddr_toNat nnn).trans_le (by omega)
    · rw [stackEntry_push]
      split
      · exact hadv hx.pc_le
      · exact hstack i
  | add hx => exact ⟨hmem, hadv hx.pc_le, hstack, hrec hx.1 rfl (by simp [hx.1, writeFlag])⟩

/-- Settles O28: a pop leaves fewer live entries, a push adds the address after the CALL it executes, and no effect
writes memory. -/
theorem liveReturnsFollowCalls : Obligations.LiveReturnsFollowCalls := by
  intro s t hlive h
  cases step_next_iff_effect.mp h with
  | @pop j hx hj => exact fun i (hi : i.val < j.val) => hlive i (by omega)
  | @push nnn j hx hj =>
    intro i (hi : i.val < j.val + 1)
    rw [stackEntry_push]
    split
    · have hp := hx.pc_le
      rw [hx.pc_add_two_toNat]
      exact ⟨by omega, by omega, nnn, hx.decode_readWord⟩
    · exact hlive i (by omega)
  | _ => exact hlive

/-- Settles O29: the advance keeps `pc` even, RET takes an even entry, and CALL an even target. -/
theorem evenTargetsKeepPcEven : Obligations.EvenTargetsKeepPcEven := by
  intro s t ⟨hpc, hlive⟩ htarget h
  have hadv (hp : s.pc.toNat ≤ 4094) : (s.pc + 2).toNat % 2 = 0 := by
    rw [show (s.pc + 2).toNat = s.pc.toNat + 2 from advance_toNat hp]
    omega
  cases step_next_iff_effect.mp h with
  | fetchFault => exact ⟨hpc, hlive⟩
  | dispatchFault hr hf hc => exact ⟨hadv (fetch_some.mp hf).1, hlive⟩
  | halt hx => exact ⟨hadv hx.pc_le, hlive⟩
  | @pop j hx hj => exact ⟨hlive j (by omega), fun i (hi : i.val < j.val) => hlive i (by omega)⟩
  | @push nnn j hx hj =>
    refine ⟨?_, fun i (hi : i.val < j.val + 1) => ?_⟩
    · rw [targetAddr_toNat]
      exact htarget nnn hx
    · rw [stackEntry_push]
      split
      · exact hadv hx.pc_le
      · exact hlive i (by omega)
  | add hx => exact ⟨hadv hx.pc_le, hlive⟩

/-- Settles O27: the values of construction; no entry is live. -/
theorem resetMeetsInvariants : Obligations.ResetMeetsInvariants :=
  ⟨⟨Memory.wf_nil, by decide, fun j => by simp, faultAgrees_of_fault_eq_none rfl (by decide)⟩,
    fun j hj => absurd hj j.val.not_lt_zero, rfl, fun j hj => absurd hj j.val.not_lt_zero⟩

end Sys2Proof.Machine
end

section
/-! SUPPORT. Runs of any length: the loop as a sequence of steps, what every step keeps, and the call stack along a run
(40_execution_cycle.md rule R108, 42_call_stack.md rule R129). -/

namespace Sys2Proof.Machine

/-- What every step keeps, a run keeps. -/
theorem RunsTo.keeps {P : State → Prop} (hstep : ∀ s t, P s → step s = .next t → P t) {n : Nat} {s t : State}
    (hs : P s) (h : RunsTo n s t) : P t := by
  induction n generalizing s with
  | zero => exact h ▸ hs
  | succ n ih =>
    obtain ⟨u, hu, h⟩ := h
    exact ih (hstep s u hs hu) h

/-- A state before the end of a run is Running. -/
theorem RunsTo.running_of_lt {j k : Nat} {s t u : State} (ht : RunsTo k s t) (hu : RunsTo j s u) (hlt : j < k) :
    u.status = .running := by
  obtain ⟨m, rfl⟩ := Nat.exists_eq_add_of_lt hlt
  obtain ⟨u', hu', v, hv, _⟩ := (runsTo_add (n := j) (k := m + 1)).mp ht
  obtain rfl := runsTo_unique hu hu'
  exact (step_next hv).1

/-- The loop is a run of at most its limit, and a shorter one has ended. -/
theorem runsTo_runSteps (n : Nat) (s : State) :
    ∃ k, k ≤ n ∧ RunsTo k s (runSteps n s) ∧ (k < n → Ended (runSteps n s)) := by
  induction n generalizing s with
  | zero => exact ⟨0, le_rfl, rfl, fun h => absurd h (Nat.lt_irrefl 0)⟩
  | succ n ih =>
    by_cases hr : s.status = .running
    · obtain ⟨t, ht⟩ := (step_next_iff_running s).mpr hr
      obtain ⟨k, hk, hrun, hend⟩ := ih t
      rw [runSteps_next hr ht]
      exact ⟨k + 1, Nat.succ_le_succ hk, ⟨t, ht, hrun⟩, fun h => hend (Nat.lt_of_succ_lt_succ h)⟩
    · rw [runSteps_ended hr]
      exact ⟨0, Nat.zero_le _, rfl, fun _ => hr⟩

/-- Settles O32: the loop's run, before whose end every state is Running. -/
theorem runTakesStepsWhileRunning : Obligations.RunTakesStepsWhileRunning := by
  intro n s
  obtain ⟨k, hk, hrun, hend⟩ := runsTo_runSteps n s
  exact ⟨k, hk, hrun, hend, fun _ _ hj hu => hrun.running_of_lt hu hj⟩

/-- No effect writes memory. -/
theorem step_mem {s t : State} (h : step s = .next t) : t.mem = s.mem := by
  cases step_next_iff_effect.mp h <;> rfl

/-- Settles O25: no step writes memory. -/
theorem memoryConstantDuringRun : Obligations.MemoryConstantDuringRun :=
  fun _ s _ h => h.keeps (P := fun u => u.mem = s.mem) (fun _ _ hu hstep => (step_mem hstep).trans hu) rfl

/-! ### Dead entries -/

/-- A step from each of two states that differ in dead entries alone has the same effect: RET pops a live entry, and
CALL overwrites the one that comes to life. -/
theorem StepEffect.agreeOnLive {s t s' : State} (hst : AgreeOnLive s t) (h : StepEffect s s') :
    ∃ t', StepEffect t t' ∧ AgreeOnLive s' t' := by
  obtain ⟨regs, pc, stack, sp, mem, status, fault⟩ := t
  obtain ⟨rfl, rfl, rfl, rfl, rfl, rfl, hlive⟩ := hst
  cases h with
  | fetchFault hr hp => exact ⟨_, .fetchFault hr hp, rfl, rfl, rfl, rfl, rfl, rfl, hlive⟩
  | dispatchFault hr hf hc => exact ⟨_, .dispatchFault hr hf hc, rfl, rfl, rfl, rfl, rfl, rfl, hlive⟩
  | halt hx => exact ⟨_, .halt hx, rfl, rfl, rfl, rfl, rfl, rfl, hlive⟩
  | @pop j hx hj =>
    exact ⟨_, .pop (s := { s with stack := stack }) hx hj, rfl, hlive j (by omega), rfl, rfl, rfl, rfl,
      fun i (hi : i.val < j.val) => hlive i (by omega)⟩
  | @push nnn j hx hj =>
    refine ⟨_, .push (s := { s with stack := stack }) hx hj, rfl, rfl, rfl, rfl, rfl, rfl,
      fun i (hi : i.val < j.val + 1) => ?_⟩
    rw [stackEntry_push, stackEntry_push]
    split
    · rfl
    · exact hlive i (by omega)
  | add hx => exact ⟨_, .add hx, rfl, rfl, rfl, rfl, rfl, rfl, hlive⟩

/-- Settles O24: the two runs take the same steps and end together. -/
theorem deadEntriesAreInvisible : Obligations.DeadEntriesAreInvisible := by
  intro n
  induction n with
  | zero => exact fun _ _ hst => hst
  | succ n ih =>
    intro s t hst
    have ⟨_, _, _, _, hstatus, _⟩ := hst
    by_cases hr : s.status = .running
    · obtain ⟨s', hs'⟩ := exists_stepEffect hr
      obtain ⟨t', ht', hst'⟩ := hs'.agreeOnLive hst
      rw [runSteps_next hr (step_next_iff_effect.mpr hs'),
        runSteps_next (hstatus.symm.trans hr) (step_next_iff_effect.mpr ht')]
      exact ih s' t' hst'
    · rw [runSteps_ended hr, runSteps_ended fun ht => hr (hstatus.trans ht)]
      exact hst

/-! ### Calls and returns -/

/-- A step overwrites no live entry: a pop clears nothing, and a push fills the slot at `sp`. -/
theorem StepEffect.stackEntry_of_lt {s t : State} (h : StepEffect s t) {i : Fin 16} (hi : i.val < s.sp.val) :
    stackEntry t i = stackEntry s i := by
  cases h with
  | @push nnn j hx hj =>
    rw [stackEntry_push]
    exact if_neg (by omega)
  | _ => rfl

/-- Only RET lowers `sp`: the step resumes at the entry it leaves at the new `sp`. -/
theorem StepEffect.return_of_sp_lt {s t : State} (h : StepEffect s t) (hlt : t.sp.val < s.sp.val) :
    ∃ j : Fin 16, s.sp.val = j.val + 1 ∧ t.sp.val = j.val ∧ t.pc = stackEntry s j ∧ t.status = .running := by
  cases h with
  | @pop j hx hj => exact ⟨j, hj, rfl, rfl, hx.1⟩
  | @push nnn j hx hj =>
    have hlt' : j.val + 1 < s.sp.val := hlt
    omega
  | _ => exact absurd hlt (Nat.lt_irrefl _)

/-- A CALL below the full depth pushes its return address and keeps the caller's entries. -/
theorem Executes.call_effect {s u : State} {nnn : Addr} {j : Fin 16} (hx : Executes s (.call nnn))
    (hj : s.sp.val = j.val) (h : step s = .next u) :
    u.sp.val = j.val + 1 ∧ u.status = .running ∧ stackEntry u j = s.pc + 2 ∧
      ∀ i : Fin 16, i.val < j.val → stackEntry u i = stackEntry s i := by
  obtain rfl := Host.Outcome.next.inj ((step_next_iff_effect.mpr (.push hx hj)).symm.trans h)
  refine ⟨rfl, hx.1, ?_, fun i hi => ?_⟩
  · rw [stackEntry_push, if_pos rfl]
  · rw [stackEntry_push, if_neg (by omega)]

/-- A run whose every step starts deeper than `d` leaves the entries up to `d` as they were. -/
theorem RunsTo.stackEntry_of_le {d n : Nat} {s t : State} (h : RunsTo n s t)
    (hdeep : ∀ k u, k < n → RunsTo k s u → d < u.sp.val) {i : Fin 16} (hi : i.val ≤ d) :
    stackEntry t i = stackEntry s i := by
  induction n generalizing s with
  | zero => rw [runsTo_zero.mp h]
  | succ n ih =>
    obtain ⟨u, hu, h⟩ := h
    have hs : d < s.sp.val := hdeep 0 s (Nat.succ_pos n) rfl
    calc stackEntry t i
      _ = stackEntry u i := ih h fun k v hk hv => hdeep (k + 1) v (Nat.succ_lt_succ hk) ⟨u, hu, hv⟩
      _ = stackEntry s i := (step_next_iff_effect.mp hu).stackEntry_of_lt (by omega)

/-- Settles O30: the callee's steps start deeper than the caller, so the pushed return address and the entries below
it are still there when a RET first lowers `sp` to the caller's depth. -/
theorem callReturnRoundTrip : Obligations.CallReturnRoundTrip := by
  intro n s t nnn hx hsp hdeep hrun hback
  let j : Fin 16 := ⟨s.sp.val, hsp⟩
  obtain ⟨u, hu, hrun⟩ := hrun
  obtain ⟨husp, _, hret, hcaller⟩ := hx.call_effect (j := j) rfl hu
  cases n with
  | zero =>
    obtain rfl := runsTo_zero.mp hrun
    exact absurd hback (by rw [husp]; exact Nat.not_succ_le_self _)
  | succ m =>
    obtain ⟨v, hv, t', ht, rfl⟩ := runsTo_add.mp hrun
    have hvdeep : s.sp.val < v.sp.val := hdeep (m + 1) v (by omega) le_rfl ⟨u, hu, hv⟩
    have hkept {i : Fin 16} (hi : i.val ≤ s.sp.val) : stackEntry v i = stackEntry u i :=
      hv.stackEntry_of_le (fun k w hk hw => hdeep (k + 1) w (by omega) (by omega) ⟨u, hu, hw⟩) hi
    have heff := step_next_iff_effect.mp ht
    obtain ⟨j', hvj, htj, hpc, hstatus⟩ := heff.return_of_sp_lt (by omega)
    obtain rfl : j' = j := Fin.ext (show j'.val = s.sp.val by omega)
    refine ⟨?_, Fin.ext htj, hstatus, fun i hi => ?_⟩
    · rw [hpc, hkept le_rfl, hret]
    · rw [heff.stackEntry_of_lt (by omega), hkept hi.le, hcaller i hi]

/-- While every state executes a CALL, each of the first 16 steps is one level deeper. -/
theorem runsTo_of_calls {n : Nat} {s : State} (hsp : s.sp.val = 0) (hr : s.status = .running) (hn : n ≤ 16)
    (hcalls : ∀ k u, k < n → RunsTo k s u → ∃ nnn, Executes u (.call nnn)) :
    ∃ t, RunsTo n s t ∧ t.sp.val = n ∧ t.status = .running := by
  induction n with
  | zero => exact ⟨s, rfl, hsp, hr⟩
  | succ n ih =>
    obtain ⟨t, ht, htsp, htr⟩ := ih (by omega) fun k u hk => hcalls k u (by omega)
    obtain ⟨nnn, hx⟩ := hcalls n t (Nat.lt_succ_self n) ht
    obtain ⟨u, hu⟩ := (step_next_iff_running t).mpr htr
    obtain ⟨husp, hur, _⟩ := hx.call_effect (j := ⟨n, hn⟩) htsp hu
    exact ⟨u, runsTo_add.mpr ⟨t, ht, u, hu, rfl⟩, husp, hur⟩

/-- Settles O31: one level per CALL, and the fault of a CALL on the full stack. -/
theorem sixteenCallsFillStack : Obligations.SixteenCallsFillStack := by
  intro n s hsp hr hn hcalls
  obtain ⟨t, ht, htsp, htr⟩ := runsTo_of_calls hsp hr hn hcalls
  refine ⟨t, ht, htsp, htr, fun nnn hfull hx => ?_⟩
  exact ⟨_, _, hx.step_call_overflow (htsp.trans hfull), rfl, rfl, rfl, htsp.trans hfull⟩

end Sys2Proof.Machine
end

section
/-! SUPPORT. Every run ends (70_reset_and_hazards.md rule R188): each step of a running state lowers a rank, the steps
the frames on the stack can still take, each weighted by the steps of a frame it may enter. -/

namespace Sys2Proof.Machine

/-- The steps one step of a frame stands for, with `k` call levels left below: itself and a callee's. -/
def stepWeight : Nat → Nat
  | 0 => 1
  | k + 1 => 1 + frameBound k

theorem stepWeight_pos (k : Nat) : 0 < stepWeight k := by
  cases k with
  | zero => exact Nat.one_pos
  | succ k => exact Nat.lt_add_right _ Nat.one_pos

/-- Rule R188's recurrence: a frame has at most 2049 steps of its own. -/
theorem frameBound_eq (k : Nat) : frameBound k = 2049 * stepWeight k := by
  cases k <;> simp [frameBound, stepWeight]

/-- The steps a frame at `pc` can still take at its own depth: a fetch at each second address up to 4094, and the
fetch that fails. -/
def stepsLeft (pc : Word) : Nat := (4096 - pc.toNat) / 2 + 1

theorem stepsLeft_le (pc : Word) : stepsLeft pc ≤ 2049 := by
  unfold stepsLeft
  omega

/-- The advance uses up one step. -/
theorem stepsLeft_advance {s : State} (hp : s.pc.toNat ≤ 4094) : stepsLeft (s.pc + 2) + 1 = stepsLeft s.pc := by
  have hadv : (s.pc + 2).toNat = s.pc.toNat + 2 := advance_toNat hp
  unfold stepsLeft
  omega

/-- The weighted steps left to a frame at depth `d` and address `pc`. -/
def frameRank (d : Nat) (pc : Word) : Nat := stepWeight (16 - d) * stepsLeft pc

theorem frameRank_pos (d : Nat) (pc : Word) : 0 < frameRank d pc :=
  Nat.mul_pos (stepWeight_pos _) (Nat.succ_pos _)

/-- F(d) bounds a frame at depth `d`. -/
theorem frameRank_le (d : Nat) (pc : Word) : frameRank d pc ≤ frameBound (16 - d) := by
  rw [frameBound_eq, frameRank, Nat.mul_comm]
  exact Nat.mul_le_mul_right _ (stepsLeft_le pc)

/-- The advance lowers a frame's rank by one step's weight. -/
theorem frameRank_advance (d : Nat) {s : State} (hp : s.pc.toNat ≤ 4094) :
    frameRank d (s.pc + 2) + stepWeight (16 - d) = frameRank d s.pc := by
  rw [frameRank, frameRank, ← stepsLeft_advance hp, Nat.mul_succ]

/-- That weight pays for the callee's frame. -/
theorem frameRank_lt_stepWeight {d : Nat} (hd : d < 16) (pc : Word) : frameRank (d + 1) pc < stepWeight (16 - d) := by
  have hlevels : 16 - d = 16 - (d + 1) + 1 := by omega
  rw [hlevels, stepWeight]
  exact Nat.lt_one_add_iff.mpr (frameRank_le (d + 1) pc)

/-- The weighted steps left to the callers' frames up to depth `d`, each resumed at its entry. -/
def callersRank (s : State) (d : Nat) : Nat := ∑ j : Fin 16 with j.val < d, frameRank j.val (stackEntry s j)

@[simp] theorem callersRank_zero (s : State) : callersRank s 0 = 0 := by
  simp [callersRank]

/-- One more live entry is one more caller. -/
theorem callersRank_succ (s : State) (j : Fin 16) :
    callersRank s (j.val + 1) = frameRank j.val (stackEntry s j) + callersRank s j.val := by
  have hset : Finset.univ.filter (fun i : Fin 16 => i.val < j.val + 1) =
      insert j (Finset.univ.filter fun i : Fin 16 => i.val < j.val) := by
    ext i
    simp only [Finset.mem_filter, Finset.mem_univ, Finset.mem_insert, true_and, Fin.ext_iff]
    omega
  rw [callersRank, hset, Finset.sum_insert (by simp), callersRank]

/-- Only the live entries count. -/
theorem callersRank_congr {s t : State} {d : Nat} (h : ∀ i : Fin 16, i.val < d → stackEntry t i = stackEntry s i) :
    callersRank t d = callersRank s d :=
  Finset.sum_congr rfl fun i hi => by rw [h i (Finset.mem_filter.mp hi).2]

/-- A push makes the frame it suspends a caller, resumed at the return address. -/
theorem callersRank_push (s : State) (pc v : Word) (sp : Fin 17) (j : Fin 16) :
    callersRank { s with pc := pc, stack := s.stack.set j.val v, sp := sp } (j.val + 1) =
      frameRank j.val v + callersRank s j.val := by
  rw [callersRank_succ, stackEntry_push, if_pos rfl]
  exact congrArg _ (callersRank_congr fun i hi => (stackEntry_push ..).trans (if_neg (by omega)))

/-- The weighted steps left to a run. -/
def runRank (s : State) : Nat := frameRank s.sp.val s.pc + callersRank s s.sp.val

theorem runRank_pos (s : State) : 0 < runRank s := Nat.add_pos_left (frameRank_pos _ _) _

/-- A step that does not end the run lowers the rank: ADD by a step's weight, RET by what was left of its frame, and
CALL by the difference between a step's weight and its callee's rank. -/
theorem StepEffect.runRank_lt {s t : State} (h : StepEffect s t) (hr : t.status = .running) :
    runRank t < runRank s := by
  cases h with
  | fetchFault => cases hr
  | dispatchFault => cases hr
  | halt => cases hr
  | @pop j hx hj =>
    calc frameRank j.val (stackEntry s j) + callersRank s j.val
      _ = callersRank s (j.val + 1) := (callersRank_succ s j).symm
      _ = callersRank s s.sp.val := by rw [hj]
      _ < runRank s := Nat.lt_add_of_pos_left (frameRank_pos _ _)
  | @push nnn j hx hj =>
    have hcallee := frameRank_lt_stepWeight j.isLt (targetAddr nnn)
    have hadv := frameRank_advance j.val hx.pc_le
    calc runRank { s with pc := targetAddr nnn, stack := s.stack.set j.val (s.pc + 2), sp := j.succ }
      _ = frameRank (j.val + 1) (targetAddr nnn) + (frameRank j.val (s.pc + 2) + callersRank s j.val) :=
        congrArg _ (callersRank_push ..)
      _ < frameRank j.val s.pc + callersRank s j.val := by omega
      _ = runRank s := by rw [runRank, hj]
  | add hx =>
    have hadv := frameRank_advance s.sp.val hx.pc_le
    have hweight := stepWeight_pos (16 - s.sp.val)
    change frameRank s.sp.val (s.pc + 2) + callersRank s s.sp.val < frameRank s.sp.val s.pc + callersRank s s.sp.val
    omega

/-- As many steps as the rank of a running state end its run. -/
theorem ended_runSteps_of_runRank_le {n : Nat} {s : State} (h : s.status = .running → runRank s ≤ n) :
    Ended (runSteps n s) := by
  induction n generalizing s with
  | zero => exact fun hr => Nat.not_lt.mpr (h hr) (runRank_pos s)
  | succ n ih =>
    by_cases hr : s.status = .running
    · obtain ⟨t, ht⟩ := exists_stepEffect hr
      rw [runSteps_next hr (step_next_iff_effect.mpr ht)]
      exact ih fun htr => Nat.le_of_lt_succ ((ht.runRank_lt htr).trans_le (h hr))
    · rwa [runSteps_ended hr]

/-- From an empty stack the rank is that of one frame, which F(0) bounds. -/
theorem runRank_le_runBound {s : State} (hsp : s.sp.val = 0) : runRank s ≤ runBound := by
  rw [runRank, hsp, callersRank_zero, runBound]
  exact frameRank_le 0 s.pc

/-- F(0) steps end every run from an empty stack. -/
theorem ended_runSteps_runBound {s : State} (hsp : s.sp.val = 0) : Ended (runSteps runBound s) :=
  ended_runSteps_of_runRank_le fun _ => runRank_le_runBound hsp

/-- Settles O33: the rank of the state is enough, and F(0) bounds it where the stack is empty. -/
theorem everyRunEnds : Obligations.EveryRunEnds :=
  ⟨fun s => ⟨runRank s, ended_runSteps_of_runRank_le fun _ => le_rfl⟩, fun _ => ended_runSteps_runBound⟩

/-! ### The budget -/

/-- Past its end a run does not change. -/
theorem runSteps_eq_of_ended {m n : Nat} {s : State} (hend : Ended (runSteps m s)) (hmn : m ≤ n) :
    runSteps n s = runSteps m s := by
  induction m generalizing n s with
  | zero => exact runSteps_ended hend
  | succ m ih =>
    obtain ⟨n, rfl⟩ := Nat.exists_eq_succ_of_ne_zero (Nat.ne_zero_of_lt hmn)
    by_cases hr : s.status = .running
    · obtain ⟨t, ht⟩ := (step_next_iff_running s).mpr hr
      rw [runSteps_next hr ht] at hend
      rw [runSteps_next hr ht, runSteps_next hr ht]
      exact ih hend (Nat.le_of_succ_le_succ hmn)
    · rw [runSteps_ended hr, runSteps_ended hr]

/-- Settles O35: a loop cut off early has taken its whole budget; one that has ended is at the state where the loop
without a budget ends too. -/
theorem budgetOnlyShortensRuns : Obligations.BudgetOnlyShortensRuns := by
  intro b s hsp
  obtain ⟨k, hk, hrun, hend⟩ := runsTo_runSteps b s
  by_cases hr : (runSteps b s).status = .running
  · obtain rfl : k = b := hk.eq_of_not_lt fun hlt => hend hlt hr
    refine .inl ⟨_, hrun, hr, ?_⟩
    simp only [runLoop, stepLimit, runResult, hr]
  · have hsame : runSteps b s = runSteps runBound s := by
      rcases le_total b runBound with hle | hle
      · exact (runSteps_eq_of_ended hr hle).symm
      · exact runSteps_eq_of_ended (ended_runSteps_runBound hsp) hle
    exact .inr (by simp only [runLoop, stepLimit, hsame])

end Sys2Proof.Machine
end

section
/-! SUPPORT. The host's writes before `run()`, and the run of what they load (40_execution_cycle.md rules R109 and
R112). -/

namespace Sys2Proof.Machine

/-- A block as the host's writes can leave it: reset but for its registers and its memory. -/
def Loaded (h : Session) : Prop :=
  ∃ regs mem, Memory.wf mem = true ∧ h = { machine := { State.reset with regs := regs, mem := mem }, phase := .beforeRun }

/-- Construction loads nothing. -/
theorem loaded_hostNew : Loaded hostNew := ⟨_, _, Memory.wf_nil, rfl⟩

/-- A loader write, rejected or not, leaves a loaded block. -/
theorem loaded_loadRegion {regs : Vector Byte 16} {mem : Memory} {base room : Nat} (bytes : List Byte)
    (hw : Memory.wf mem = true) (hb : base + room ≤ Config.memSize) :
    Loaded { machine := (loadRegion { State.reset with regs := regs, mem := mem } base room bytes).2
             phase := .beforeRun } := by
  obtain ⟨m, hm, hmw⟩ := loadRegion_keeps (s := { State.reset with regs := regs, mem := mem }) bytes hw hb
  exact ⟨regs, m, hmw, by rw [hm]⟩

/-- Each of the host's writes on a loaded block is carried out and leaves one. -/
theorem Loaded.perform {h : Session} (hl : Loaded h) (a : LoadAction) : ∃ h', a.perform h = .ok h' ∧ Loaded h' := by
  obtain ⟨regs, mem, hw, rfl⟩ := hl
  cases a with
  | regWrite i v => exact ⟨_, rfl, _, mem, hw, rfl⟩
  | writeSystem bytes => exact ⟨_, rfl, loaded_loadRegion bytes hw (by decide)⟩
  | writeProgram bytes => exact ⟨_, rfl, loaded_loadRegion bytes hw (by decide)⟩

/-- So is any sequence of them. -/
theorem Loaded.performAll {h : Session} (hl : Loaded h) (acts : List LoadAction) :
    ∃ h', performAll acts h = .ok h' ∧ Loaded h' := by
  induction acts generalizing h with
  | nil => exact ⟨h, rfl, hl⟩
  | cons a acts ih =>
    obtain ⟨h', hp, hl'⟩ := hl.perform a
    simp only [Machine.performAll, hp]
    exact ih hl'

/-- A loaded block meets the machine's invariant. -/
theorem Loaded.inv {h : Session} (hl : Loaded h) : h.machine.Inv := by
  obtain ⟨regs, mem, hw, rfl⟩ := hl
  exact { resetMeetsInvariants.1 with mem := hw }

/-- Settles O39: the writes leave a loaded block, whose other state is construction's. -/
theorem loadedBlockIsReady : Obligations.LoadedBlockIsReady := by
  intro acts
  obtain ⟨h, hp, hl⟩ := loaded_hostNew.performAll acts
  have hinv := hl.inv
  obtain ⟨regs, mem, _, rfl⟩ := hl
  exact ⟨_, hp, rfl, hinv, rfl, rfl, rfl, rfl, stackEntry_reset⟩

/-- The loop keeps the invariant. -/
theorem State.Inv.runSteps {s : State} (h : s.Inv) (n : Nat) : (runSteps n s).Inv := by
  obtain ⟨_, _, hrun, _⟩ := runsTo_runSteps n s
  exact hrun.keeps stepKeepsInvariant h

/-- A run without a budget from an empty stack reports how it ended, with the record of a fault. -/
theorem runLoop_none_reports {s : State} (hinv : s.Inv) (hsp : s.sp.val = 0) :
    ((runLoop none s).1 = .halted ∧ (runLoop none s).2.status = .halted) ∨
      ∃ rec, (runLoop none s).1 = .faulted (some rec) ∧ (runLoop none s).2.status = .faulted ∧
        (runLoop none s).2.fault = some rec := by
  have hend : Ended (runSteps runBound s) := ended_runSteps_runBound hsp
  have hagrees : FaultAgrees (runSteps runBound s) := (hinv.runSteps runBound).fault
  simp only [runLoop, stepLimit, runResult]
  cases hs : (runSteps runBound s).status with
  | running => exact absurd hs hend
  | halted => exact .inl ⟨rfl, rfl⟩
  | faulted =>
    obtain ⟨rec, hrec⟩ := hagrees.exists_record hs
    exact .inr ⟨rec, by rw [hrec], rfl, hrec⟩

/-- Settles O34: the loaded block has an empty stack and meets the invariant. -/
theorem unbudgetedRunReports : Obligations.UnbudgetedRunReports := by
  intro acts h hp
  obtain ⟨h', hp', hphase, hinv, _, hsp, _⟩ := loadedBlockIsReady acts
  obtain rfl := Except.ok.inj (hp.symm.trans hp')
  exact ⟨(runLoop none h.machine).1, { machine := (runLoop none h.machine).2, phase := .afterRun },
    by simp only [hostRun, hphase], rfl, runLoop_none_reports hinv (congrArg Fin.val hsp)⟩

end Sys2Proof.Machine
end
